-- ==== Sys2Proof/Word.lean ====
section
/-! DEFINITION. The bit-vector types of the block, at the widths of 10_state.md R21 (00_scope.md R7 at
the values this hardware takes), and the constants the source fixes (00_scope.md R6). -/

namespace Sys2Proof

/-- One 8-bit channel value or payload byte (`CH_BITS` = 8, R6). -/
abbrev Byte := BitVec 8

/-- The 2-bit value written to `CMD` (30_encoding.md R90). -/
abbrev Opcode := BitVec 2

/-- A register's 4-bit number on the host interface (30_encoding.md R95). -/
abbrev RegIndex := BitVec 4

/-- `USED_CH` (R6): the channels of a pixel that carry frame bits are 0, 1 and 2. -/
abbrev usedChannels : Nat := 3

/-- `PREFIX_BITS` (R6): the width of the length prefix. -/
abbrev prefixBits : Nat := 32

/-- `L_MAX` (R6): the largest payload length the frame can declare. -/
abbrev maxLength : Nat := 2 ^ 32 - 1

end Sys2Proof
end

