-- ==== Sys2Proof/Machine/HostScript.lean ====
section
/-! DEFINITION. The host interface: the register file's indexes, widths and access rights (10_state.md R21,
30_encoding.md R95) and the host's moves in the script notation of 30_encoding.md R110 and R111. -/

namespace Sys2Proof.Machine

/-- The fourteen registers of 10_state.md R21. -/
inductive Reg where
  | cmd | status | phase | op | env | w | h | b | plen | len | cursor | x | y | ch
  deriving DecidableEq, Repr

/-- The host's right to a register (R21): read only, read and write, write only. -/
inductive Access where
  | ro | rw | wo
  deriving DecidableEq, Repr

/-- Register of an index (30_encoding.md R95); 0xE and 0xF are reserved. -/
def Reg.ofIndex (i : RegIndex) : Option Reg :=
  match i.toNat with
  | 0x0 => some .cmd
  | 0x1 => some .status
  | 0x2 => some .phase
  | 0x3 => some .op
  | 0x4 => some .env
  | 0x5 => some .w
  | 0x6 => some .h
  | 0x7 => some .b
  | 0x8 => some .plen
  | 0x9 => some .len
  | 0xA => some .cursor
  | 0xB => some .x
  | 0xC => some .y
  | 0xD => some .ch
  | _ => none

/-- Index of a register (30_encoding.md R95). -/
def Reg.index : Reg → RegIndex
  | .cmd => 0x0
  | .status => 0x1
  | .phase => 0x2
  | .op => 0x3
  | .env => 0x4
  | .w => 0x5
  | .h => 0x6
  | .b => 0x7
  | .plen => 0x8
  | .len => 0x9
  | .cursor => 0xA
  | .x => 0xB
  | .y => 0xC
  | .ch => 0xD

/-- Width in bits (R21). -/
def Reg.width : Reg → Nat
  | .cmd => 2
  | .status => 4
  | .phase => 2
  | .op => 2
  | .env => 2
  | .w => 32
  | .h => 32
  | .b => 66
  | .plen => 64
  | .len => 32
  | .cursor => 36
  | .x => 32
  | .y => 65
  | .ch => 2

/-- Host access (R21). -/
def Reg.access : Reg → Access
  | .cmd => .wo
  | .env | .w | .h | .b | .plen => .rw
  | .status | .phase | .op | .len | .cursor | .x | .y | .ch => .ro

/-- A move of the host. The first six are the lines of 30_encoding.md R110, `wait` is the pseudo-instruction
`WAIT` of R111, `reset` is the block's reset (70_reset_and_hazards.md R260, R262). `coreStep` is the model's
own: it is no access, it only says that the core takes one step before the host's next move, so that a read or
a reset can be placed between any two steps of a command (DESIGN CHOICE, log 4). -/
inductive HostAction where
  /-- `WR <reg>, <value>`. -/
  | wr (i : RegIndex) (v : Nat)
  /-- `RD <reg>`. -/
  | rd (i : RegIndex)
  /-- `IMGW <a>, <byte> ...`. -/
  | imgWrite (a : Nat) (bytes : List Byte)
  /-- `PAYW <k>, <byte> ...`. -/
  | payWrite (k : Nat) (bytes : List Byte)
  /-- `IMGR <a>, <n>`. -/
  | imgRead (a n : Nat)
  /-- `PAYR <k>, <n>`. -/
  | payRead (k n : Nat)
  /-- `WAIT`: repeat `RD PHASE` until it returns 0. -/
  | wait
  /-- Let the core take one step first. -/
  | coreStep
  /-- Reset the block. -/
  | reset
  deriving DecidableEq, Repr

/-- What one read of the host returned. -/
inductive HostSeen where
  | reg (i : RegIndex) (v : Nat)
  | img (a : Nat) (bytes : List Byte)
  | pay (k : Nat) (bytes : List Byte)
  deriving DecidableEq, Repr

/-- Whether a write to this index has no step while the core is busy: a write to `CMD` or to a `RW` register
waits; a write to an `RO` register is ignored in any phase (10_state.md R42), and so is one to a reserved
index, which has no register to wait for (U8, log 9). -/
def writeWaits (i : RegIndex) : Bool :=
  match Reg.ofIndex i with
  | some r =>
    match r.access with
    | .ro => false
    | .rw => true
    | .wo => true
  | none => false

/-- The moves that have no step while `PHASE != IDLE` (10_state.md R42, 20_memory.md R76,
70_reset_and_hazards.md R270). `WAIT` is none of them: it is made of reads of `PHASE` (30_encoding.md R111). -/
def HostAction.waits : HostAction → Bool
  | .wr i _ => writeWaits i
  | .rd _ => false
  | .imgWrite _ _ => true
  | .payWrite _ _ => true
  | .imgRead _ _ => true
  | .payRead _ _ => true
  | .wait => false
  | .coreStep => false
  | .reset => false

end Sys2Proof.Machine
end

