-- ==== Sys2Proof/Syntax.lean ====
section
/-! DEFINITION. The commands of the block, one constructor per row of spec/opcode_table.json. -/

namespace Sys2Proof

/-- The command set (30_encoding.md R91). A command has no operand field: its operands are registers
(R90, R92). -/
inductive Instr where
  /-- `ADDR`: evaluate the address function on `B` and `W` (40_bit_addressor.md R121). -/
  | addr
  /-- `ENCODE`: write the frame of the offered payload into the image (41_encoder.md R140). -/
  | encode
  /-- `DECODE`: read the frame from the image (42_decoder.md R170). -/
  | decode
  deriving DecidableEq, Repr

end Sys2Proof
end

