-- ==== Sys2Proof/WellFormed.lean ====
section
/-! DEFINITION. Which terms can be presented to the block. A command has no field that could be out of range;
what can be ill formed is a move of the host (10_state.md R42, 93_implementation_defined.md U8). -/

namespace Sys2Proof

/-- Every command is well formed: it has no operand field (30_encoding.md R90). -/
def Instr.wf : Instr → Bool
  | .addr => true
  | .encode => true
  | .decode => true

namespace Machine

/-- A well-formed host move: the index names a register the host may access that way, and a written value fits
the register ("the host cannot present a wider value than the register", 10_state.md R42). The machine is
total without this check: it stores `v % 2^width`. -/
def HostAction.wf : HostAction → Bool
  | .wr i v =>
    match Reg.ofIndex i with
    | some r => decide (v < 2 ^ r.width)
    | none => false
  | .rd i =>
    match Reg.ofIndex i with
    | some r => r.access != .wo
    | none => false
  | .imgWrite _ _ => true
  | .payWrite _ _ => true
  | .imgRead _ _ => true
  | .payRead _ _ => true
  | .wait => true
  | .coreStep => true
  | .reset => true

end Machine

end Sys2Proof
end

