-- ==== Sys2Proof/Decode.lean ====
section
/-! DEFINITION. The command word: decoder, total on every word, and encoder (30_encoding.md R90 to R94). -/

namespace Sys2Proof

/-- What a command word stands for. -/
inductive Decoded where
  /-- A command of the opcode map. -/
  | command (i : Instr)
  /-- The reserved opcode `0b11` (30_encoding.md R93). -/
  | reservedOpcode
  deriving DecidableEq, Repr

/-- The opcode map (30_encoding.md R91), complete: every 2-bit word has one row. -/
def decode (word : Opcode) : Decoded :=
  match word.toNat with
  | 0 => .command .addr
  | 1 => .command .encode
  | 2 => .command .decode
  | _ => .reservedOpcode

/-- The word of a command, from the match column of R91. -/
def encode : Instr → Opcode
  | .addr => 0b00
  | .encode => 0b01
  | .decode => 0b10

/-- The command word a host write of `v` to `CMD` presents: the opcode is `v[1:0]` (10_state.md R22), and a
write stores `v % 2^width` (R42). -/
def commandWord (v : Nat) : Opcode := BitVec.ofNat 2 v

/-- The instruction read from a word numbered as the opcode table numbers it; the command word is not stored in
memory, so there is no byte order to undo. -/
def decodeTableWord (nbits w : Nat) : Option Instr :=
  match decode (commandWord (w % 2 ^ nbits)) with
  | .command i => some i
  | .reservedOpcode => none

end Sys2Proof
end

