-- ==== Sys2Proof/Config.lean ====
section
/-! DEFINITION. What an implementation fixes (the parameters of 00_scope.md R7) and the values the spec
leaves open after the machine goes on. -/

namespace Sys2Proof

/-- The parameters 00_scope.md R7 leaves to the implementation. They are fixed for one machine: `State`
carries them and no step writes them (DESIGN CHOICE, log 3). The register widths of R7 are in `State`. -/
structure Params where
  /-- How many channel bytes a pixel stores beyond the three used ones; so `NCH >= 3` always holds. -/
  extraChannels : Nat
  /-- `IMG_BYTES`: the number of byte cells of the image memory; `none` is "unbounded". -/
  imgBytes : Option Nat
  /-- `PAY_BYTES`: the number of byte cells of the payload memory; `none` is "unbounded". -/
  payBytes : Option Nat
  deriving DecidableEq, Repr

/-- `NCH`, the channel bytes stored per pixel: any integer `>= 3` (00_scope.md R7, U13). -/
def Params.nch (p : Params) : Nat := 3 + p.extraChannels

/-- The machine of R7's defaults: `NCH = 3`; unbounded memories are a DESIGN CHOICE among R7's OPEN sizes
(log 3). -/
def Params.default : Params := { extraChannels := 0, imgBytes := none, payBytes := none }

/-- The value an operand or result register holds after a reset during a run: "unspecified", treated as any
value (10_state.md R50, 93_implementation_defined.md U9). Draw `n`, width `w`; no body, so nothing can be
proved of it (log 8). -/
opaque freeBits (w n : Nat) : BitVec w

/-- The cells a memory lists after a reset of an idle block: "every memory cell unspecified"
(70_reset_and_hazards.md R260, U9; log 8). -/
opaque freeCells (n : Nat) : List (Nat × BitVec 8)

/-- The value a host read of `CMD` or of a reserved index returns: "any value" (10_state.md R42, U8; log 9). -/
opaque freeRead (n : Nat) : Nat

end Sys2Proof
end

