-- ==== Sys2Proof/Machine/State.lean ====
section
/-! DEFINITION. The state of the block (10_state.md R20), the reasons a step stops, and the state after reset
(R50). -/

namespace Sys2Proof.Machine

/-- The phases of the sequencer (10_state.md R24); the number 3 is never written by the core (log 14). -/
inductive Phase where
  /-- `IDLE`: no command in progress. -/
  | idle
  /-- `PREFIX`: handling frame bits 0 to 31. -/
  | prefixPhase
  /-- `PAYLOAD`: handling frame bits 32 and up. -/
  | payloadPhase
  deriving DecidableEq, Repr

/-- The result kinds of 30_encoding.md R96 and the two other legal values of `STATUS.CODE`. The unused numbers
have no constructor (U17); `outputWriteError` is kept and never written (U16; log 14). -/
inductive ResultKind where
  | none
  | ok
  | busy
  | emptyPayloadWarning
  | imageLoadError
  | payloadReadError
  | payloadTooLargeError
  | insufficientCapacityError
  | invalidLengthError
  | outputWriteError
  | illegalCommand
  deriving DecidableEq, Repr

/-- One of the two byte memories (20_memory.md R60): its listed cells by rising address. -/
abbrev Memory := List Host.Cell

/-- The state. Fields from `status` to `pay` are the spec's (10_state.md R20; `CMD` stores nothing, R22); the
last four are the model's own (INVENTORY.md). -/
structure State where
  /-- `STATUS.CODE` (R23). -/
  status : ResultKind
  /-- `PHASE` (R24). -/
  phase : Phase
  /-- `OP` (R25). -/
  op : BitVec 2
  /-- `ENV`: bit 0 `IMG_OK`, bit 1 `PAY_OK` (R33). -/
  env : BitVec 2
  /-- `W` (R26). -/
  w : BitVec 32
  /-- `H` (R26). -/
  h : BitVec 32
  /-- `B` (R27). -/
  b : BitVec 66
  /-- `PLEN` (R28). -/
  plen : BitVec 64
  /-- `LEN` (R29). -/
  len : BitVec 32
  /-- `CURSOR` (R30, R31). -/
  cursor : BitVec 36
  /-- `X` (R32). -/
  x : BitVec 32
  /-- `Y` (R32). -/
  y : BitVec 65
  /-- `CH` (R32). -/
  ch : BitVec 2
  /-- `ACC` (R34). -/
  acc : BitVec 8
  /-- `IMG` (R36). -/
  img : Memory
  /-- `PAY` (R37). -/
  pay : Memory
  /-- The parameters of 00_scope.md R7; no step writes them (log 3). -/
  params : Params
  /-- The host's pending moves, oldest first (log 4). -/
  host : List HostAction
  /-- What the host's reads returned, oldest first (log 5). -/
  seen : List HostSeen
  /-- How many free values were drawn (log 8, log 9). -/
  draws : Nat
  deriving DecidableEq, Repr

/-- Why the machine is stuck. All are safe: the model stops where the spec promises nothing. -/
inductive Fault where
  /-- Raised by an access to `IMG` that reaches a linear address at or above `IMG_BYTES`; `stuck` in U10
  (20_memory.md R74). Safe. -/
  | imgOutOfRange (a : Nat)
  /-- Raised by an access to `PAY` that reaches an address at or above `PAY_BYTES`; `stuck` in U10. Safe. -/
  | payOutOfRange (k : Nat)
  /-- Raised by the core's step in a state without a row in the transition table of 44_sequencing_and_access.md
  R211: "unreachable; a model gives them no steps". Safe. -/
  | noSequencerRow
  deriving DecidableEq, Repr

/-- Why a command or an access has no meaning. All are safe. -/
inductive Refusal where
  /-- An instruction without its meaning, by mnemonic. Safe. -/
  | notModelled (mnemonic : String)
  /-- Raised where `addr(b, 0)` is evaluated: "a model refuses the step" (44 R211, 40 R124, U1). Safe. -/
  | addrWidthZero
  /-- Raised by a pixel or channel access through a triple that names no cell of the image: `refuse` in U2
  (40 R125). Safe; no reachable state raises it. -/
  | outsideImage
  /-- Raised by executing a command while `PHASE != IDLE`: such a write "has no step" (10_state.md R42). Safe;
  `step` lets the write wait and never raises it. -/
  | commandWhileBusy
  deriving DecidableEq, Repr

/-- The outcome of a part of a step that yields an `α`. -/
abbrev Res (α : Type) := Host.Outcome α Fault Refusal

/-- The block right after reset (10_state.md R50). `STATUS`, `PHASE`, `OP`, `CURSOR` and `ACC` hold the spec's
values; the other registers are unspecified there (DESIGN CHOICE, log 1: `W` and `H` hold 1 here, by the source's
invariant `W*H >= 1` in R26, and the others 0), the memories list nothing (log 2), and nothing is pending (log 7). -/
def State.reset : State where
  status := .none
  phase := .idle
  op := 0
  env := 0
  w := 1
  h := 1
  b := 0
  plen := 0
  len := 0
  cursor := 0
  x := 0
  y := 0
  ch := 0
  acc := 0
  img := []
  pay := []
  params := Params.default
  host := []
  seen := []
  draws := 0

end Sys2Proof.Machine
end

