-- ==== Sys2Proof/Machine/Ops.lean ====
section
/-! DEFINITION. The named operations over memory and registers: byte memories in one canonical form, bounded
accesses, the pixel read and write of 00_scope.md R11, the register updates of the step rules, and the one
operation that ends a command with a result kind (`raise`, `done`). -/

namespace Sys2Proof.Machine

/-- Sequencing inside one step: a fault or refusal of the first part is the step's. -/
def andThen {α β : Type} (r : Res α) (k : α → Res β) : Res β :=
  match r with
  | .next a => k a
  | .fault f => .fault f
  | .refused f => .refused f

/-! ### Memory -/

/-- What an unlisted byte reads as: the spec leaves memory unspecified after reset (DESIGN CHOICE, log 2). -/
def blankByte : Byte := 0x00#8

/-- The byte at an address (20_memory.md R75: the value most recently written there). -/
def Memory.read : Memory → Nat → Byte
  | [], _ => blankByte
  | (k, v) :: m, a => if k = a then v else Memory.read m a

/-- Store a byte, keeping the canonical form: addresses strictly rising, no blank byte listed. -/
def Memory.write : Memory → Nat → Byte → Memory
  | [], a, v => if v = blankByte then [] else [(a, v)]
  | (k, u) :: m, a, v =>
    if a < k then (if v = blankByte then (k, u) :: m else (a, v) :: (k, u) :: m)
    else if a = k then (if v = blankByte then m else (a, v) :: m)
    else (k, u) :: Memory.write m a v

/-- Canonical form above `lo`: every address at least `lo`, strictly rising, no blank byte listed. -/
def Memory.wfFrom (lo : Nat) : Memory → Bool
  | [] => true
  | (k, v) :: m => decide (lo ≤ k) && (v != blankByte) && Memory.wfFrom (k + 1) m

/-- The canonical form. -/
def Memory.wf (m : Memory) : Bool := Memory.wfFrom 0 m

/-- `n` consecutive bytes from `a`. -/
def Memory.readBytes (m : Memory) (a n : Nat) : List Byte :=
  (List.range n).map fun j => Memory.read m (a + j)

/-- Store consecutive bytes from `a`. -/
def Memory.writeBytes : Memory → Nat → List Byte → Memory
  | m, _, [] => m
  | m, a, v :: vs => Memory.writeBytes (Memory.write m a v) (a + 1) vs

/-- Whether `n` bytes from `a` lie inside a memory of the given size (20_memory.md R74). -/
def fits (size : Option Nat) (a n : Nat) : Bool :=
  match size with
  | none => true
  | some m => decide (n = 0) || decide (a + n ≤ m)

/-- The memory of a given size that holds these cells, in canonical form; cells beyond the size are none of it. -/
def Memory.ofCells (size : Option Nat) : List Host.Cell → Memory
  | [] => []
  | (a, v) :: rest =>
    if fits size a 1 then Memory.write (Memory.ofCells size rest) a v else Memory.ofCells size rest

/-! ### Register updates -/

/-- `STATUS.CODE <- k`, `PHASE <- IDLE`: the end of a command (00_scope.md R11, 60_exceptions.md R231). -/
def State.finish (s : State) (k : ResultKind) : State := { s with status := k, phase := .idle }

/-- `OP <- o` (10_state.md R25). -/
def State.setOp (s : State) (o : Opcode) : State := { s with op := o }

/-- The accepting start step's writes (41_encoder.md R148, 42_decoder.md R175). -/
def State.accept (s : State) (l : BitVec 32) : State :=
  { s with len := l, cursor := 0, phase := .prefixPhase, status := .busy }

/-- `CURSOR <- n` (10_state.md R31). -/
def State.setCursor (s : State) (n : Nat) : State := { s with cursor := BitVec.ofNat 36 n }

/-- `PHASE <- p`. -/
def State.setPhase (s : State) (p : Phase) : State := { s with phase := p }

/-- `LEN <- l`. -/
def State.setLen (s : State) (l : BitVec 32) : State := { s with len := l }

/-- `ACC <- v`. -/
def State.setAcc (s : State) (v : BitVec 8) : State := { s with acc := v }

/-- `X <- x`, `Y <- y`, `CH <- c` (40_bit_addressor.md R121). -/
def State.setTriple (s : State) (x y c : Nat) : State :=
  { s with x := BitVec.ofNat 32 x, y := BitVec.ofNat 65 y, ch := BitVec.ofNat 2 c }

/-- New contents of `IMG`. -/
def State.setImg (s : State) (m : Memory) : State := { s with img := m }

/-- New contents of `PAY`. -/
def State.setPay (s : State) (m : Memory) : State := { s with pay := m }

/-- The host's pending moves from here on. -/
def State.setHost (s : State) (h : List HostAction) : State := { s with host := h }

/-- Hand the host what its read returned. -/
def State.see (s : State) (o : HostSeen) : State := { s with seen := s.seen ++ [o] }

/-- Move past `n` drawn free values. -/
def State.draw (s : State) (n : Nat) : State := { s with draws := s.draws + n }

/-! ### Ending a command -/

/-- `raise <Kind>()` (00_scope.md R11, 60_exceptions.md R231): this block's taking of an exception. Nothing is
saved, no mode changes and control goes nowhere; there is no return (60_exceptions.md R232). -/
def raise (k : ResultKind) (s : State) : State := s.finish k

/-- `done(<Kind>)` (00_scope.md R11): "the same for a non-error result". -/
def done (k : ResultKind) (s : State) : State := s.finish k

/-- A command's start step exists only while `PHASE = IDLE` (10_state.md R22, R42). -/
def whenIdle (s : State) (r : Res State) : Res State :=
  match s.phase with
  | .idle => r
  | .prefixPhase => .refused .commandWhileBusy
  | .payloadPhase => .refused .commandWhileBusy

/-! ### Bounded accesses -/

/-- `n` bytes of `IMG` from `a`, as one access. -/
def loadImgBytes (a n : Nat) (s : State) : Res (List Byte) :=
  if fits s.params.imgBytes a n then .next (s.img.readBytes a n) else .fault (.imgOutOfRange a)

/-- Store bytes to `IMG` from `a`, as one access. -/
def storeImgBytes (a : Nat) (bytes : List Byte) (s : State) : Res State :=
  if fits s.params.imgBytes a bytes.length then .next (s.setImg (s.img.writeBytes a bytes))
  else .fault (.imgOutOfRange a)

/-- `n` bytes of `PAY` from `k`, as one access. -/
def loadPayBytes (k n : Nat) (s : State) : Res (List Byte) :=
  if fits s.params.payBytes k n then .next (s.pay.readBytes k n) else .fault (.payOutOfRange k)

/-- Store bytes to `PAY` from `k`, as one access. -/
def storePayBytes (k : Nat) (bytes : List Byte) (s : State) : Res State :=
  if fits s.params.payBytes k bytes.length then .next (s.setPay (s.pay.writeBytes k bytes))
  else .fault (.payOutOfRange k)

/-- `MemRead(IMG, a, 1)` (00_scope.md R11). -/
def loadImg (a : Nat) (s : State) : Res Byte :=
  if fits s.params.imgBytes a 1 then .next (s.img.read a) else .fault (.imgOutOfRange a)

/-- `MemRead(PAY, k, 1)`. -/
def loadPay (k : Nat) (s : State) : Res Byte :=
  if fits s.params.payBytes k 1 then .next (s.pay.read k) else .fault (.payOutOfRange k)

/-- `MemWrite(PAY, k, 1, v)`. -/
def storePay (k : Nat) (v : Byte) (s : State) : Res State :=
  if fits s.params.payBytes k 1 then .next (s.setPay (s.pay.write k v)) else .fault (.payOutOfRange k)

end Sys2Proof.Machine
end

