-- ==== Sys2Proof/Machine/Flags.lean ====
section
/-! DEFINITION. The block has no condition flags (10_state.md R39). What stands for them: the two input flags of
`ENV` (R33), the code numbers of `STATUS` and their class bit (30_encoding.md R96), and the number of a phase
(R95). -/

namespace Sys2Proof.Machine

/-- `ENV[0] = IMG_OK` (10_state.md R33). -/
def State.imgOk (s : State) : Bool := s.env.getLsbD 0

/-- `ENV[1] = PAY_OK` (10_state.md R33). -/
def State.payOk (s : State) : Bool := s.env.getLsbD 1

/-- The number of a result kind in `STATUS.CODE` (30_encoding.md R96). -/
def ResultKind.code : ResultKind → BitVec 4
  | .none => 0x0
  | .ok => 0x1
  | .busy => 0x2
  | .emptyPayloadWarning => 0x3
  | .imageLoadError => 0x8
  | .payloadReadError => 0x9
  | .payloadTooLargeError => 0xA
  | .insufficientCapacityError => 0xB
  | .invalidLengthError => 0xC
  | .outputWriteError => 0xD
  | .illegalCommand => 0xF

/-- `CODE[3]`: 1 exactly for the hard errors (10_state.md R23). -/
def ResultKind.isError (k : ResultKind) : Bool := k.code.getLsbD 3

/-- The number of a phase (30_encoding.md R95). -/
def Phase.code : Phase → BitVec 2
  | .idle => 0
  | .prefixPhase => 1
  | .payloadPhase => 2

/-- Busy is `PHASE != IDLE` (00_scope.md glossary). -/
def State.isBusy (s : State) : Bool :=
  match s.phase with
  | .idle => false
  | .prefixPhase => true
  | .payloadPhase => true

end Sys2Proof.Machine
end

