-- ==== Sys2Proof/Machine/Operands.lean ====
section
/-! DEFINITION. Operands. A command has no operand field; its operands are named registers (30_encoding.md R92)
and the numbers computed from them: the address triple, the linear address, the capacity and the frame length,
all exact naturals (00_scope.md R9). And the register file as the host reads and writes it by index. -/

namespace Sys2Proof.Machine

/-- A cell name `(x, y, c)`: column, row, channel (20_memory.md R61). -/
structure Triple where
  x : Nat
  y : Nat
  c : Nat
  deriving DecidableEq, Repr

/-- `addr(b, Wd)` (40_bit_addressor.md R120), without a value for width 0 (R124). -/
def addr (b wd : Nat) : Option Triple :=
  match wd with
  | 0 => none
  | n + 1 => some { x := b / usedChannels % (n + 1), y := b / usedChannels / (n + 1), c := b % usedChannels }

/-- `lin(x, y, c) = (y * W + x) * NCH + c` (20_memory.md R62), with the register `W` of the access's state. -/
def lin (s : State) (t : Triple) : Nat := (t.y * s.w.toNat + t.x) * s.params.nch + t.c

/-- `capacity_bits = W * H * 3` (20_memory.md R66). -/
abbrev State.capacityBits (s : State) : Nat := s.w.toNat * s.h.toNat * usedChannels

/-- `frame_bit_length = 32 + 8 * L` (20_memory.md R67). -/
abbrev frameBitLength (l : Nat) : Nat := prefixBits + 8 * l

/-- Whether a triple names a cell of the image the block may use: the precondition of the pixel accesses in
93_implementation_defined.md U2. -/
def insideImage (s : State) (t : Triple) : Bool :=
  decide (t.x < s.w.toNat) && decide (t.y < s.h.toNat) && decide (t.c < usedChannels)

/-- Bit `i` of a value (00_scope.md R10): `v[i] = (v >> i) & 1`. -/
def bitOf {w : Nat} (v : BitVec w) (i : Nat) : Bool := v.getLsbD i

/-- `bit << i` at width `w`. -/
def bitAt (w : Nat) (bit : Bool) (i : Nat) : BitVec w := (BitVec.ofBool bit).setWidth w <<< i

/-- `(old & 0xFE) | bit` (20_memory.md R70). -/
def withLsb (old : Byte) (bit : Bool) : Byte := (old &&& 0xFE#8) ||| bitAt 8 bit 0

/-- The number a host read of a register returns (10_state.md R42); `none` for `CMD`, which stores nothing. -/
def State.readReg (s : State) : Reg → Option Nat
  | .cmd => none
  | .status => some s.status.code.toNat
  | .phase => some s.phase.code.toNat
  | .op => some s.op.toNat
  | .env => some s.env.toNat
  | .w => some s.w.toNat
  | .h => some s.h.toNat
  | .b => some s.b.toNat
  | .plen => some s.plen.toNat
  | .len => some s.len.toNat
  | .cursor => some s.cursor.toNat
  | .x => some s.x.toNat
  | .y => some s.y.toNat
  | .ch => some s.ch.toNat

/-- A host write's effect on the stored registers: a `RW` register takes `v % 2^width`, a write to an `RO`
register is ignored (10_state.md R42), and `CMD` stores nothing (R22). -/
def State.writeReg (s : State) (r : Reg) (v : Nat) : State :=
  match r with
  | .env => { s with env := BitVec.ofNat 2 v }
  | .w => { s with w := BitVec.ofNat 32 v }
  | .h => { s with h := BitVec.ofNat 32 v }
  | .b => { s with b := BitVec.ofNat 66 v }
  | .plen => { s with plen := BitVec.ofNat 64 v }
  | .cmd | .status | .phase | .op | .len | .cursor | .x | .y | .ch => s

/-! ### The image through triples -/

/-- `PixRead(x, y)` (00_scope.md R11): the `NCH` bytes of the pixel, as one access. -/
def pixRead (x y : Nat) (s : State) : Res (List Byte) :=
  loadImgBytes (lin s { x := x, y := y, c := 0 }) s.params.nch s

/-- `PixWrite(x, y, p)` (00_scope.md R11): the `NCH` bytes stored, as one access. -/
def pixWrite (x y : Nat) (p : List Byte) (s : State) : Res State :=
  storeImgBytes (lin s { x := x, y := y, c := 0 }) p s

/-- `SetLsb(x, y, c, bit)` (41_encoder.md R151): read the pixel, replace bit 0 of one channel, write it back. -/
def setLsb (t : Triple) (bit : Bool) (s : State) : Res State :=
  if insideImage s t then
    andThen (pixRead t.x t.y s) fun p => pixWrite t.x t.y (p.modify t.c fun old => withLsb old bit) s
  else .refused .outsideImage

/-- `MemRead(IMG, lin(x, y, c), 1) & 1` (42_decoder.md R176). -/
def getLsb (t : Triple) (s : State) : Res Bool :=
  if insideImage s t then andThen (loadImg (lin s t) s) fun v => .next (bitOf v 0)
  else .refused .outsideImage

/-- Put a frame bit into the cell of index `b`: `(x, y, c) = addr(b, W)`, then `SetLsb`. -/
def putFrameBit (b : Nat) (bit : Bool) (s : State) : Res State :=
  match addr b s.w.toNat with
  | some t => setLsb t bit s
  | none => .refused .addrWidthZero

/-- Read the frame bit of index `b` from its cell. -/
def getFrameBit (b : Nat) (s : State) : Res Bool :=
  match addr b s.w.toNat with
  | some t => getLsb t s
  | none => .refused .addrWidthZero

end Sys2Proof.Machine
end

