-- ==== Sys2Proof/Machine/Addressor.lean ====
section
/-! DEFINITION. The addressing unit's command, `ADDR` (40_bit_addressor.md). -/

namespace Sys2Proof.Machine

/-- `ADDR` (40_bit_addressor.md R121): one atomic step. With `W = 0` the next phase, the status and the results
are undefined and "a model refuses the step" (44_sequencing_and_access.md R211; log 10). -/
def execAddr (s : State) : Res State :=
  whenIdle s <|
    match addr s.b.toNat s.w.toNat with
    | some t => .next (done .ok ((s.setTriple t.x t.y t.c).setOp (encode .addr)))
    | none => .refused .addrWidthZero

end Sys2Proof.Machine
end

