-- ==== Sys2Proof/Machine/Decoder.lean ====
section
/-! DEFINITION. The decoder unit: the start step of `DECODE`, its two bit steps and the length validation
(42_decoder.md). -/

namespace Sys2Proof.Machine

/-- The checks of the `DECODE` start step, in order (42_decoder.md R172). -/
def decodeCheck (s : State) : Option ResultKind :=
  if s.imgOk = false then some .imageLoadError
  else if s.capacityBits < prefixBits then some .invalidLengthError
  else none

/-- `DECODE`, the start step (42_decoder.md R172 to R175). The bit steps that follow are the sequencer's. -/
def execDecode (s : State) : Res State :=
  whenIdle s <|
    match decodeCheck s with
    | some k => .next (raise k (s.setOp (encode .decode)))
    | none => .next (((s.setOp (encode .decode)).accept 0).setAcc 0)

/-- `validate(L)` for the completed length in `LEN` (42_decoder.md R177): invalid before empty. -/
def validateLength (s : State) : State :=
  if s.capacityBits < frameBitLength s.len.toNat then raise .invalidLengthError s
  else if s.len.toNat = 0 then done .emptyPayloadWarning s
  else (s.setPhase .payloadPhase).setAcc 0

/-- The `DECODE` prefix step (42_decoder.md R176). -/
def decodePrefixStep (s : State) : Res State :=
  let b := s.cursor.toNat
  andThen (getFrameBit b s) fun bit =>
    let s' := (s.setLen (s.len ||| bitAt 32 bit b)).setCursor (b + 1)
    if b = 31 then .next (validateLength s') else .next s'

/-- The end of a `DECODE` payload step: the cursor moves on and the last frame bit completes the command
(42_decoder.md R179, R181). -/
def decodePayloadAdvance (b : Nat) (s : State) : State :=
  let s' := s.setCursor (b + 1)
  if b + 1 = frameBitLength s.len.toNat then done .ok s' else s'

/-- The `DECODE` payload step (42_decoder.md R179, R180). -/
def decodePayloadStep (s : State) : Res State :=
  let b := s.cursor.toNat
  let j := b - prefixBits
  andThen (getFrameBit b s) fun bit =>
    let v := s.acc ||| bitAt 8 bit (j % 8)
    if j % 8 < 7 then .next (decodePayloadAdvance b (s.setAcc v))
    else andThen (storePay (j / 8) v s) fun s' => .next (decodePayloadAdvance b (s'.setAcc 0))

end Sys2Proof.Machine
end

