-- ==== Sys2Proof/Machine/Encoder.lean ====
section
/-! DEFINITION. The encoder unit: the start step of `ENCODE` and its two bit steps (41_encoder.md). -/

namespace Sys2Proof.Machine

/-- The checks of the `ENCODE` start step in the source's order; the first that fails decides the kind
(41_encoder.md R141, R142). -/
def encodeCheck (s : State) : Option ResultKind :=
  if s.imgOk = false then some .imageLoadError
  else if s.payOk = false then some .payloadReadError
  else if s.plen.toNat > maxLength then some .payloadTooLargeError
  else if s.capacityBits < frameBitLength s.plen.toNat then some .insufficientCapacityError
  else none

/-- `ENCODE`, the start step (41_encoder.md R142 to R148). The bit steps that follow are the sequencer's. -/
def execEncode (s : State) : Res State :=
  whenIdle s <|
    match encodeCheck s with
    | some k => .next (raise k (s.setOp (encode .encode)))
    | none => .next ((s.setOp (encode .encode)).accept (s.plen.setWidth 32))

/-- The `ENCODE` prefix step (41_encoder.md R149). -/
def encodePrefixStep (s : State) : Res State :=
  let b := s.cursor.toNat
  andThen (putFrameBit b (bitOf s.len b) s) fun s' =>
    let s'' := s'.setCursor (b + 1)
    if b = 31 then
      if s.len.toNat = 0 then .next (done .ok s'') else .next (s''.setPhase .payloadPhase)
    else .next s''

/-- The `ENCODE` payload step (41_encoder.md R150). -/
def encodePayloadStep (s : State) : Res State :=
  let b := s.cursor.toNat
  let j := b - prefixBits
  andThen (loadPay (j / 8) s) fun v =>
    andThen (putFrameBit b (bitOf v (j % 8)) s) fun s' =>
      let s'' := s'.setCursor (b + 1)
      if b + 1 = frameBitLength s.len.toNat then .next (done .ok s'') else .next s''

end Sys2Proof.Machine
end

