-- ==== Sys2Proof/Machine/Sequencer.lean ====
section
/-! DEFINITION. The sequencer: which bit step is enabled (44_sequencing_and_access.md R211), what the reserved
opcode does (30_encoding.md R93), and the reset (70_reset_and_hazards.md R260, R262). -/

namespace Sys2Proof.Machine

/-- The one bit step enabled while busy, by `PHASE`, `OP` and `CURSOR` (44_sequencing_and_access.md R211). A
state without a row has no step: while idle "the core has no step of its own", and the other states are
unreachable. -/
def bitStep (s : State) : Res State :=
  match s.phase with
  | .idle => .fault .noSequencerRow
  | .prefixPhase =>
    if s.cursor.toNat < prefixBits then
      if s.op = encode .encode then encodePrefixStep s
      else if s.op = encode .decode then decodePrefixStep s
      else .fault .noSequencerRow
    else .fault .noSequencerRow
  | .payloadPhase =>
    if prefixBits ≤ s.cursor.toNat ∧ s.cursor.toNat < frameBitLength s.len.toNat then
      if s.op = encode .encode then encodePayloadStep s
      else if s.op = encode .decode then decodePayloadStep s
      else .fault .noSequencerRow
    else .fault .noSequencerRow

/-- The reserved opcode `0b11` (30_encoding.md R93): `OP <- 3`, `STATUS.CODE <- ILLEGAL_COMMAND`, nothing else.
A next state: the defined result of 93_implementation_defined.md U7. -/
def illegalCommand (s : State) : Res State := whenIdle s <| .next (raise .illegalCommand (s.setOp 0b11))

/-- Contents of a memory after a reset: unspecified when no command is in progress (a free value, R260), and not
restored when one is, which is to say it stays as the command left it (R262, U12; log 8). -/
def resetMemory (s : State) (size : Option Nat) (m : Memory) (n : Nat) : Memory :=
  match s.phase with
  | .idle => Memory.ofCells size (freeCells n)
  | .prefixPhase => m
  | .payloadPhase => m

/-- Reset in any phase (70_reset_and_hazards.md R260, R262): the control state returns to its reset values, the
operand and result registers are unspecified (free values, U9; log 8). -/
def resetBlock (s : State) : State :=
  { s with
    status := .none
    phase := .idle
    op := 0
    cursor := 0
    acc := 0
    env := freeBits 2 s.draws
    w := freeBits 32 (s.draws + 1)
    h := freeBits 32 (s.draws + 2)
    b := freeBits 66 (s.draws + 3)
    plen := freeBits 64 (s.draws + 4)
    len := freeBits 32 (s.draws + 5)
    x := freeBits 32 (s.draws + 6)
    y := freeBits 65 (s.draws + 7)
    ch := freeBits 2 (s.draws + 8)
    img := resetMemory s s.params.imgBytes s.img (s.draws + 9)
    pay := resetMemory s s.params.payBytes s.pay (s.draws + 10)
    draws := s.draws + 11 }

end Sys2Proof.Machine
end

