-- ==== Sys2Proof/Machine/HostMoves.lean ====
section
/-! DEFINITION. The moves of the host, and whose move comes next. -/

namespace Sys2Proof.Machine

/-- A host write to `CMD` is the start step of the command with opcode `v[1:0]` (10_state.md R22). -/
def startCommand (v : Nat) (s : State) : Res State :=
  match decode (commandWord v) with
  | .command i => exec i s
  | .reservedOpcode => illegalCommand s

/-- `WR <reg>, <value>` (10_state.md R42). A write to a reserved index changes nothing (U8, log 9). -/
def hostWrite (i : RegIndex) (v : Nat) (s : State) : Res State :=
  match Reg.ofIndex i with
  | some .cmd => startCommand v s
  | some r => .next (s.writeReg r v)
  | none => .next s

/-- `RD <reg>`: the register's current value, no side effect on the block, in any phase (10_state.md R42). `CMD`
and the reserved indexes read as a free value (U8, log 9). -/
def hostRead (i : RegIndex) (s : State) : State :=
  match (Reg.ofIndex i).bind s.readReg with
  | some v => s.see (.reg i v)
  | none => (s.see (.reg i (freeRead s.draws))).draw 1

/-- One turn of `WAIT`, "repeat `RD PHASE` until it returns 0" (30_encoding.md R111): the read, and unless it returned
0 the loop again. How many core steps pass between two reads is open; here it is one (DESIGN CHOICE, log 20). -/
def hostPoll (s : State) : State :=
  let polled := hostRead Reg.phase.index s
  if s.isBusy then polled.setHost (.coreStep :: .wait :: s.host) else polled

/-- A host move that is taken now. -/
def hostMove (a : HostAction) (s : State) : Res State :=
  match a with
  | .wr i v => hostWrite i v s
  | .rd i => .next (hostRead i s)
  | .imgWrite a bytes => storeImgBytes a bytes s
  | .payWrite k bytes => storePayBytes k bytes s
  | .imgRead a n => andThen (loadImgBytes a n s) fun bytes => .next (s.see (.img a bytes))
  | .payRead k n => andThen (loadPayBytes k n s) fun bytes => .next (s.see (.pay k bytes))
  | .wait => .next (hostPoll s)
  | .coreStep => if s.isBusy then bitStep s else .next s
  | .reset => .next (resetBlock s)

/-- Whose move it is (00_scope.md R14, 10_state.md R42, 44_sequencing_and_access.md R211). While busy, a pending
move that must wait, or no pending move, lets the core take its one enabled step; a read or a reset is taken at
once. While idle the host's next move is taken, and with none pending the block "does nothing until the host
writes `CMD`" (70_reset_and_hazards.md R260; log 6). -/
def nextMove (s : State) : Res State :=
  match s.host with
  | [] => if s.isBusy then bitStep s else .next s
  | a :: rest => if a.waits && s.isBusy then bitStep s else hostMove a (s.setHost rest)

end Sys2Proof.Machine
end

