-- ==== Sys2Proof/Machine/Step.lean ====
section
/-! DEFINITION. One step of the machine, and how a command word is put where the next step takes it. -/

namespace Sys2Proof.Machine

/-- One atomic step: a host move or a step of the core. -/
def step (s : State) : Host.Outcome State Fault Refusal := nextMove s

/-- The state in which the very next step is the host's write of the word `w` to `CMD`. The block fetches
nothing (20_memory.md R80): a program comes from outside, as the host's moves (log 7). A command is taken only
while `PHASE = IDLE`, so the phase is idle here. -/
def State.withFetchWord (s : State) (nbits w : Nat) : State :=
  { s with phase := .idle, host := .wr Reg.cmd.index (w % 2 ^ nbits) :: s.host }

end Sys2Proof.Machine
end

