-- ==== Sys2Proof/Safety.lean ====
section
/-! DEFINITION. The terms claims use: the relations the state always satisfies (10_state.md R41), the host's
duties on memory sizes (70_reset_and_hazards.md R266), the frame (30_encoding.md R100, R102) and the big-step
results of `ENCODE` and `DECODE` (41_encoder.md R160, 42_decoder.md R190). The machine does not use this file. -/

namespace Sys2Proof.Machine

/-! ### Invariants -/

/-- 10_state.md R41, items 1 to 6. -/
structure State.SeqInv (s : State) : Prop where
  busyIff : s.status = .busy ↔ s.phase ≠ .idle
  busyOp : s.phase ≠ .idle → s.op = encode .encode ∨ s.op = encode .decode
  prefixCursor : s.phase = .prefixPhase → s.cursor.toNat ≤ 31
  payloadCursor : s.phase = .payloadPhase →
    1 ≤ s.len.toNat ∧ 32 ≤ s.cursor.toNat ∧ s.cursor.toNat < 32 + 8 * s.len.toNat
  frameFits : s.phase ≠ .idle → (s.op = encode .encode ∨ s.phase = .payloadPhase) →
    32 + 8 * s.len.toNat ≤ s.w.toNat * s.h.toNat * 3
  prefixFits : s.phase ≠ .idle → 32 ≤ s.w.toNat * s.h.toNat * 3
  cursorInImage : s.phase ≠ .idle → s.cursor.toNat < s.w.toNat * s.h.toNat * 3

/-- What else every step keeps: both memories in canonical form, the partial length of a `DECODE` prefix
(42_decoder.md R176) and the partial byte of a `DECODE` payload (10_state.md R34, 42_decoder.md R180). -/
structure State.DataInv (s : State) : Prop where
  imgWf : s.img.wf = true
  payWf : s.pay.wf = true
  partialLength : s.phase = .prefixPhase → s.op = encode .decode → s.len.toNat < 2 ^ s.cursor.toNat
  partialByte : s.phase = .payloadPhase → s.op = encode .decode →
    s.acc.toNat < 2 ^ ((s.cursor.toNat - 32) % 8)
  accClear : ¬ (s.phase = .payloadPhase ∧ s.op = encode .decode) → s.acc = 0

/-- The invariant of the machine. -/
structure State.Inv (s : State) : Prop where
  seq : s.SeqInv
  data : s.DataInv

/-- A state right after a reset with any values in the places 10_state.md R50 leaves unspecified
(93_implementation_defined.md U9). -/
structure State.AfterReset (s : State) : Prop where
  phase : s.phase = .idle
  status : s.status = .none
  op : s.op = 0
  cursor : s.cursor = 0
  acc : s.acc = 0

/-! ### Duties of the host -/

/-- `W * H * NCH <= IMG_BYTES` (70_reset_and_hazards.md R266). -/
def State.imgHeld (s : State) : Prop := fits s.params.imgBytes 0 (s.w.toNat * s.h.toNat * s.params.nch) = true

/-- The payload cells a command may reach exist: `n <= PAY_BYTES`. -/
def State.payHeld (s : State) (n : Nat) : Prop := fits s.params.payBytes 0 n = true

/-- R266 for `ENCODE`. -/
def State.encodeDuty (s : State) : Prop :=
  s.imgOk = true → s.imgHeld ∧
    (s.payOk = true → 32 ≤ s.w.toNat * s.h.toNat * 3 →
      s.payHeld (min s.plen.toNat ((s.w.toNat * s.h.toNat * 3 - 32) / 8)))

/-- R266 for `DECODE`. -/
def State.decodeDuty (s : State) : Prop :=
  s.imgOk = true → s.imgHeld ∧
    (32 ≤ s.w.toNat * s.h.toNat * 3 → s.payHeld ((s.w.toNat * s.h.toNat * 3 - 32) / 8))

/-- R266 for the command in progress. -/
def State.busyDuty (s : State) : Prop :=
  s.imgHeld ∧
    (s.op = encode .encode → s.payHeld s.len.toNat) ∧
    (s.op = encode .decode → s.payHeld ((s.w.toNat * s.h.toNat * 3 - 32) / 8))

/-- The host leaves a busy core alone: it has no move pending, or one that must wait
(70_reset_and_hazards.md R270). -/
def hostWaits : List HostAction → Bool
  | [] => true
  | a :: _ => a.waits

/-! ### The frame -/

/-- `F[i]` of the frame of length `l` and bytes `p` (30_encoding.md R100). -/
def frameBit (l : Nat) (p : Nat → Byte) (i : Nat) : Bool :=
  if i < 32 then l.testBit i else (p ((i - 32) / 8)).getLsbD ((i - 32) % 8)

/-- The linear address of frame bit `i` (20_memory.md R63). -/
def cellAddress (nch i : Nat) : Nat := i / 3 * nch + i % 3

/-- `G[i]`, bit 0 of the cell of frame bit `i` (42_decoder.md R190). -/
def State.lsbAt (s : State) (i : Nat) : Bool := bitOf (s.img.read (cellAddress s.params.nch i)) 0

/-- `Σ g i << i` for `i < n` (30_encoding.md R102). -/
def gather (g : Nat → Bool) : Nat → Nat
  | 0 => 0
  | n + 1 => gather g n + (if g n then 2 ^ n else 0)

/-- The declared length of the image, `L = Σ G[i] << i` for `i` in 0..31. -/
def State.declaredLength (s : State) : Nat := gather s.lsbAt 32

/-- `PAY[k] = Σ G[32 + 8k + j] << j` for `j` in 0..7. -/
def State.declaredByte (s : State) (k : Nat) : Nat := gather (fun j => s.lsbAt (32 + 8 * k + j)) 8

/-! ### Big steps -/

/-- What no `ENCODE` and no `DECODE` writes: `W`, `H`, `ENV`, `PLEN`, `B`, `X`, `Y`, `CH`, and the model's own
`params`, `seen`, `draws`. -/
structure OperandsKept (s t : State) : Prop where
  w : t.w = s.w
  h : t.h = s.h
  env : t.env = s.env
  plen : t.plen = s.plen
  b : t.b = s.b
  x : t.x = s.x
  y : t.y = s.y
  ch : t.ch = s.ch
  params : t.params = s.params
  seen : t.seen = s.seen
  draws : t.draws = s.draws

/-- An `ENCODE` that ends with error `k`: nothing but `OP` and `STATUS.CODE` is written. -/
structure EncodeRejected (k : ResultKind) (s t : State) : Prop where
  status : t.status = k
  len : t.len = s.len
  cursor : t.cursor = s.cursor
  img : t.img = s.img

/-- An `ENCODE` that ends with `OK`: the frame of the offered payload stands in the image. -/
structure EncodeAccepted (s t : State) : Prop where
  status : t.status = .ok
  len : t.len.toNat = s.plen.toNat
  cursor : t.cursor.toNat = 32 + 8 * s.plen.toNat
  frame : ∀ i, i < 32 + 8 * s.plen.toNat →
    t.img.read (cellAddress s.params.nch i) =
      (s.img.read (cellAddress s.params.nch i) &&& 0xFE#8) |||
        (if frameBit s.plen.toNat s.pay.read i then 1#8 else 0#8)
  rest : ∀ a, (∀ i, i < 32 + 8 * s.plen.toNat → a ≠ cellAddress s.params.nch i) → t.img.read a = s.img.read a

/-- `ENCODE` as a relation of the start state and the end state (41_encoder.md R160). -/
structure EncodeEnd (s t : State) : Prop where
  kept : OperandsKept s t
  phase : t.phase = .idle
  op : t.op = 1
  pay : t.pay = s.pay
  acc : t.acc = s.acc
  result :
    if s.imgOk = false then EncodeRejected .imageLoadError s t
    else if s.payOk = false then EncodeRejected .payloadReadError s t
    else if 2 ^ 32 - 1 < s.plen.toNat then EncodeRejected .payloadTooLargeError s t
    else if s.w.toNat * s.h.toNat * 3 < 32 + 8 * s.plen.toNat then EncodeRejected .insufficientCapacityError s t
    else EncodeAccepted s t

/-- The steps of an `ENCODE`, its start step included (41_encoder.md R153). -/
def encodeSteps (s : State) : Nat :=
  if s.imgOk = false ∨ s.payOk = false ∨ 2 ^ 32 - 1 < s.plen.toNat ∨
      s.w.toNat * s.h.toNat * 3 < 32 + 8 * s.plen.toNat
  then 1 else 1 + (32 + 8 * s.plen.toNat)

/-- A `DECODE` that leaves `PAY` alone, with the `LEN`, `CURSOR` and `ACC` it leaves. -/
structure DecodeNoPayload (k : ResultKind) (l c a : Nat) (s t : State) : Prop where
  status : t.status = k
  len : t.len.toNat = l
  cursor : t.cursor.toNat = c
  acc : t.acc.toNat = a
  pay : t.pay = s.pay

/-- A `DECODE` that ends with `OK`: the declared bytes stand in `PAY`, no other cell is written. -/
structure DecodeAccepted (s t : State) : Prop where
  status : t.status = .ok
  len : t.len.toNat = s.declaredLength
  cursor : t.cursor.toNat = 32 + 8 * s.declaredLength
  acc : t.acc = 0
  bytes : ∀ k, k < s.declaredLength → (t.pay.read k).toNat = s.declaredByte k
  rest : ∀ k, s.declaredLength ≤ k → t.pay.read k = s.pay.read k

/-- `DECODE` as a relation of the start state and the end state (42_decoder.md R190). -/
structure DecodeEnd (s t : State) : Prop where
  kept : OperandsKept s t
  phase : t.phase = .idle
  op : t.op = 2
  img : t.img = s.img
  result :
    if s.imgOk = false then
      DecodeNoPayload .imageLoadError s.len.toNat s.cursor.toNat s.acc.toNat s t
    else if s.w.toNat * s.h.toNat * 3 < 32 then
      DecodeNoPayload .invalidLengthError s.len.toNat s.cursor.toNat s.acc.toNat s t
    else if s.w.toNat * s.h.toNat * 3 < 32 + 8 * s.declaredLength then
      DecodeNoPayload .invalidLengthError s.declaredLength 32 0 s t
    else if s.declaredLength = 0 then DecodeNoPayload .emptyPayloadWarning 0 32 0 s t
    else DecodeAccepted s t

/-- The steps of a `DECODE`, its start step included (42_decoder.md R183). -/
def decodeSteps (s : State) : Nat :=
  if s.imgOk = false ∨ s.w.toNat * s.h.toNat * 3 < 32 then 1
  else if s.w.toNat * s.h.toNat * 3 < 32 + 8 * s.declaredLength ∨ s.declaredLength = 0 then 1 + 32
  else 1 + (32 + 8 * s.declaredLength)

end Sys2Proof.Machine
end

