-- ==== Sys2Proof/Certificates/Slice0/Obligations.lean ====
section
/-! DEFINITION. The statements for the provers. Each says in its docstring which rule of spec/ it formalises. -/

open Sys2Proof Sys2Proof.Machine

/-! ### Encodings -/

/-- 30_encoding.md R91: match and mask of the three commands; the fourth word is reserved. -/
def Obligations.OpcodeWordsDecodeByMatchAndMask : Prop :=
  ∀ w : Opcode,
    (w &&& 0x3#2 = 0x0#2 ↔ decode w = .command .addr) ∧
    (w &&& 0x3#2 = 0x1#2 ↔ decode w = .command .encode) ∧
    (w &&& 0x3#2 = 0x2#2 ↔ decode w = .command .decode) ∧
    (w = 0b11 ↔ decode w = .reservedOpcode)

/-- Decoder and encoder agree both ways on every command word (30_encoding.md R91, R94). -/
def Obligations.DecodeAndEncodeAgree : Prop :=
  (∀ i : Instr, i.wf = true → decode (encode i) = .command i) ∧
  (∀ (w : Opcode) (i : Instr), decode w = .command i → encode i = w)

/-- 30_encoding.md R96, 10_state.md R23: the numbers of `STATUS.CODE`, pairwise distinct, bit 3 set exactly for
the hard errors. -/
def Obligations.StatusCodesAreTheTable : Prop :=
  (ResultKind.none.code = 0x0 ∧ ResultKind.ok.code = 0x1 ∧ ResultKind.busy.code = 0x2 ∧
    ResultKind.emptyPayloadWarning.code = 0x3 ∧ ResultKind.imageLoadError.code = 0x8 ∧
    ResultKind.payloadReadError.code = 0x9 ∧ ResultKind.payloadTooLargeError.code = 0xA ∧
    ResultKind.insufficientCapacityError.code = 0xB ∧ ResultKind.invalidLengthError.code = 0xC ∧
    ResultKind.outputWriteError.code = 0xD ∧ ResultKind.illegalCommand.code = 0xF) ∧
  (∀ j k : ResultKind, j.code = k.code → j = k) ∧
  (∀ k : ResultKind, k.isError = true ↔
    k ≠ .none ∧ k ≠ .ok ∧ k ≠ .busy ∧ k ≠ .emptyPayloadWarning)

/-- 30_encoding.md R102: assembling the bits of a frame gives back its length and every byte. -/
def Obligations.FrameBitsAssembleBack : Prop :=
  ∀ (l : Nat) (p : Nat → Byte), l < 2 ^ 32 →
    gather (frameBit l p) 32 = l ∧
    (∀ k, gather (fun j => frameBit l p (32 + 8 * k + j)) 8 = (p k).toNat) ∧
    (∀ g : Nat → Bool, gather g 32 ≤ 2 ^ 32 - 1 ∧ gather g 8 ≤ 255)

/-! ### The step and the decoded command -/

/-- 10_state.md R22: while idle, a host write to `CMD` is the start step of the command its word decodes to; the
step takes the move off the host's list and does nothing else around `exec`. -/
def Obligations.CmdWriteWhileIdleRunsTheDecodedCommand : Prop :=
  ∀ (s : State) (v : Nat) (rest : List HostAction) (i : Instr),
    s.phase = .idle → s.host = .wr 0x0 v :: rest → decode (commandWord v) = .command i →
    step s = exec i (s.setHost rest)

/-- 30_encoding.md R93: the reserved opcode sets `OP` to 3 and `STATUS.CODE` to `ILLEGAL_COMMAND`, and the record
update says that nothing else changes (the model's list of host moves loses the move). -/
def Obligations.ReservedOpcodeReportsIllegalCommand : Prop :=
  ∀ (s : State) (v : Nat) (rest : List HostAction),
    s.phase = .idle → s.host = .wr 0x0 v :: rest → v % 4 = 3 →
    step s = .next { s with host := rest, op := 3, status := .illegalCommand }

/-- 10_state.md R42: a command has no step while another is in progress. The refusal's name is the model's
(log 15); `step` itself lets the write wait. -/
def Obligations.NoCommandExecutesWhileBusy : Prop :=
  ∀ (i : Instr) (s : State), s.phase ≠ .idle → exec i s = .refused .commandWhileBusy

/-- 70_reset_and_hazards.md R260: "the block does nothing until the host writes `CMD`". That doing nothing is a
step which leaves the state as it is, is the model's choice (log 6). -/
def Obligations.IdleBlockWithoutHostMoveStays : Prop :=
  ∀ s : State, s.phase = .idle → s.host = [] → step s = .next s

/-- 44_sequencing_and_access.md R211: idle, the core has no step of its own; busy with `OP` 0 or 3 is unreachable
and has no step. The name of the stop is the model's (log 13). -/
def Obligations.SequencerHasNoStepWithoutARow : Prop :=
  ∀ s : State, (s.phase = .idle ∨ s.op = 0 ∨ s.op = 3) → bitStep s = .fault .noSequencerRow

/-- How the interface places a command (log 7): with a table word placed, the very next step runs exactly the
command the decoder reads from it, on an idle block. -/
def Obligations.PlacedTableWordRunsNext : Prop :=
  ∀ (s : State) (nbits w : Nat) (i : Instr), decodeTableWord nbits w = some i →
    step (s.withFetchWord nbits w) = exec i { s with phase := .idle }

/-! ### The addressing unit -/

/-- 40_bit_addressor.md R121, R120: with `W >= 1`, `ADDR` completes in one step with the triple of the formula,
exact, `OP = 0`, `STATUS.CODE = OK`, and leaves everything else; with `W = 0` its results are undefined and the step
is refused ("model: refuse"). A host write of opcode 0 to `CMD` while idle is that step. -/
def Obligations.AddrTranslatesTheBitIndex : Prop :=
  ∀ s : State, s.phase = .idle →
    (1 ≤ s.w.toNat →
      ∃ t, exec .addr s = .next t ∧
        t.x.toNat = s.b.toNat / 3 % s.w.toNat ∧
        t.y.toNat = s.b.toNat / 3 / s.w.toNat ∧
        t.ch.toNat = s.b.toNat % 3 ∧
        t.op = 0 ∧ t.status = .ok ∧ t.phase = .idle ∧
        t.env = s.env ∧ t.w = s.w ∧ t.h = s.h ∧ t.b = s.b ∧ t.plen = s.plen ∧ t.len = s.len ∧
        t.cursor = s.cursor ∧ t.acc = s.acc ∧ t.params = s.params ∧ t.host = s.host ∧ t.seen = s.seen ∧
        t.draws = s.draws ∧
        (∀ a, t.img.read a = s.img.read a) ∧ (∀ k, t.pay.read k = s.pay.read k)) ∧
    (s.w.toNat = 0 → exec .addr s = .refused .addrWidthZero) ∧
    (∀ v rest, s.host = .wr 0x0 v :: rest → v % 4 = 0 → step s = exec .addr (s.setHost rest))

/-- 40_bit_addressor.md R123: the inverse of the address function; it has a value for every index, so that it is a
bijection, and below the capacity one onto the cells of the image. -/
def Obligations.AddressFunctionHasTheInverse : Prop :=
  ∀ b wd : Nat, 1 ≤ wd →
    (∃ t, addr b wd = some t) ∧
    ∀ t : Triple,
      (addr b wd = some t ↔ t.x < wd ∧ t.c ≤ 2 ∧ b = 3 * (t.y * wd + t.x) + t.c) ∧
      (addr b wd = some t → t.y * wd + t.x = b / 3 ∧ ∀ h, (b < wd * h * 3 ↔ t.y < h))

/-- 40_bit_addressor.md R128: the successor form. -/
def Obligations.AddressFunctionHasTheSuccessorForm : Prop :=
  ∀ wd : Nat, 1 ≤ wd →
    addr 0 wd = some { x := 0, y := 0, c := 0 } ∧
    ∀ (b : Nat) (t : Triple), addr b wd = some t →
      (t.c < 2 → addr (b + 1) wd = some { x := t.x, y := t.y, c := t.c + 1 }) ∧
      (t.c = 2 → t.x < wd - 1 → addr (b + 1) wd = some { x := t.x + 1, y := t.y, c := 0 }) ∧
      (t.c = 2 → t.x = wd - 1 → addr (b + 1) wd = some { x := 0, y := t.y + 1, c := 0 })

/-- 20_memory.md R63: the linear address of a frame bit does not depend on `W`; with `NCH = 3` it is the bit index
itself, with `NCH = 4` it is never 3 modulo 4. -/
def Obligations.FrameBitAddressesAreDense : Prop :=
  ∀ (s : State) (b : Nat) (t : Triple), addr b s.w.toNat = some t →
    lin s t = b / 3 * s.params.nch + b % 3 ∧
    (s.params.nch = 3 → lin s t = b) ∧
    (s.params.nch = 4 → lin s t = 4 * (b / 3) + b % 3 ∧ lin s t % 4 ≠ 3)

/-- 40_bit_addressor.md R126: a bit index below the capacity names an existing cell, and a command in progress
forms only such addresses. -/
def Obligations.AddressesOfCommandsAreInsideTheImage : Prop :=
  (∀ (b wd h : Nat) (t : Triple), 1 ≤ wd → b < wd * h * 3 → addr b wd = some t →
    t.x < wd ∧ t.y < h ∧ t.c ≤ 2) ∧
  (∀ s : State, s.Inv → s.phase ≠ .idle → hostWaits s.host = true →
    s.cursor.toNat < s.w.toNat * s.h.toNat * 3 ∧
    step s ≠ .refused .outsideImage ∧ step s ≠ .refused .addrWidthZero)

/-! ### Start steps -/

/-- 41_encoder.md R142: the start step of `ENCODE`, check by check in the source's order, each error writing only
`OP` and `STATUS.CODE`, and the accepting branch (R148) with the length exact. It is the step of a host write of
opcode 1 to `CMD` while idle. -/
def Obligations.EncodeStartStepChecksInOrder : Prop :=
  ∀ s : State, s.phase = .idle →
    (s.imgOk = false →
      exec .encode s = .next { s with op := 1, status := .imageLoadError }) ∧
    (s.imgOk = true → s.payOk = false →
      exec .encode s = .next { s with op := 1, status := .payloadReadError }) ∧
    (s.imgOk = true → s.payOk = true → s.plen.toNat > 2 ^ 32 - 1 →
      exec .encode s = .next { s with op := 1, status := .payloadTooLargeError }) ∧
    (s.imgOk = true → s.payOk = true → s.plen.toNat ≤ 2 ^ 32 - 1 →
      s.w.toNat * s.h.toNat * 3 < 32 + 8 * s.plen.toNat →
      exec .encode s = .next { s with op := 1, status := .insufficientCapacityError }) ∧
    (s.imgOk = true → s.payOk = true → s.plen.toNat ≤ 2 ^ 32 - 1 →
      32 + 8 * s.plen.toNat ≤ s.w.toNat * s.h.toNat * 3 →
      ∃ l : BitVec 32, l.toNat = s.plen.toNat ∧
        exec .encode s =
          .next { s with op := 1, len := l, cursor := 0, phase := .prefixPhase, status := .busy }) ∧
    (∀ v rest, s.host = .wr 0x0 v :: rest → v % 4 = 1 → step s = exec .encode (s.setHost rest))

/-- 42_decoder.md R172: the start step of `DECODE`, and its accepting branch (R175). It is the step of a host write
of opcode 2 to `CMD` while idle. -/
def Obligations.DecodeStartStepChecksInOrder : Prop :=
  ∀ s : State, s.phase = .idle →
    (s.imgOk = false →
      exec .decode s = .next { s with op := 2, status := .imageLoadError }) ∧
    (s.imgOk = true → s.w.toNat * s.h.toNat * 3 < 32 →
      exec .decode s = .next { s with op := 2, status := .invalidLengthError }) ∧
    (s.imgOk = true → 32 ≤ s.w.toNat * s.h.toNat * 3 →
      exec .decode s =
        .next { s with op := 2, len := 0, cursor := 0, acc := 0, phase := .prefixPhase, status := .busy }) ∧
    (∀ v rest, s.host = .wr 0x0 v :: rest → v % 4 = 2 → step s = exec .decode (s.setHost rest))

/-- 43_framing_invariants.md R204: the capacity boundary. -/
def Obligations.EncodeCapacityBoundary : Prop :=
  ∀ s : State, s.phase = .idle → s.imgOk = true → s.payOk = true → s.plen.toNat ≤ 2 ^ 32 - 1 →
    (32 + 8 * s.plen.toNat = s.w.toNat * s.h.toNat * 3 →
      s.plen.toNat % 3 = 2 ∧ ∃ t, exec .encode s = .next t ∧ t.status = .busy) ∧
    (32 + 8 * s.plen.toNat = s.w.toNat * s.h.toNat * 3 + 1 →
      s.plen.toNat % 3 = 1 ∧ ∃ t, exec .encode s = .next t ∧ t.status = .insufficientCapacityError) ∧
    ((∃ t, exec .encode s = .next t ∧ t.status = .busy) ↔
      32 ≤ s.w.toNat * s.h.toNat * 3 ∧ s.plen.toNat ≤ (s.w.toNat * s.h.toNat * 3 - 32) / 8)

/-! ### Bit steps -/

/-- 41_encoder.md R151: `SetLsb` replaces bit 0 of one byte, keeps bits 7 to 1 and every other byte, and moves the
byte's value by at most 1. -/
def Obligations.SetLsbReplacesOneBit : Prop :=
  ∀ (s : State) (t : Triple) (bit : Bool), s.img.wf = true →
    t.x < s.w.toNat → t.y < s.h.toNat → t.c ≤ 2 →
    fits s.params.imgBytes (lin s { t with c := 0 }) s.params.nch = true →
    ∃ m : Memory, setLsb t bit s = .next { s with img := m } ∧ m.wf = true ∧
      m.read (lin s t) = (s.img.read (lin s t) &&& 0xFE#8) ||| (if bit then 1#8 else 0#8) ∧
      (∀ i, 1 ≤ i → (m.read (lin s t)).getLsbD i = (s.img.read (lin s t)).getLsbD i) ∧
      (m.read (lin s t)).toNat ≤ (s.img.read (lin s t)).toNat + 1 ∧
      (s.img.read (lin s t)).toNat ≤ (m.read (lin s t)).toNat + 1 ∧
      (∀ a, a ≠ lin s t → m.read a = s.img.read a)

/-- 41_encoder.md R149: the `ENCODE` prefix step writes bit `b` of `LEN` into bit 0 of the cell of frame bit `b`,
moves the cursor on, and after bit 31 completes or enters the payload phase. -/
def Obligations.EncodePrefixStepWritesALengthBit : Prop :=
  ∀ s : State, s.Inv → s.phase = .prefixPhase → s.op = 1 → hostWaits s.host = true → s.imgHeld →
    ∃ t, step s = .next t ∧ OperandsKept s t ∧ t.host = s.host ∧
      t.op = s.op ∧ t.len = s.len ∧ t.acc = s.acc ∧ t.pay = s.pay ∧
      t.cursor.toNat = s.cursor.toNat + 1 ∧
      (∀ a, t.img.read a =
        if a = cellAddress s.params.nch s.cursor.toNat then
          (s.img.read a &&& 0xFE#8) ||| (if (s.len.toNat >>> s.cursor.toNat) % 2 = 1 then 1#8 else 0#8)
        else s.img.read a) ∧
      (s.cursor.toNat < 31 → t.phase = .prefixPhase ∧ t.status = .busy) ∧
      (s.cursor.toNat = 31 → s.len.toNat = 0 → t.phase = .idle ∧ t.status = .ok) ∧
      (s.cursor.toNat = 31 → 1 ≤ s.len.toNat → t.phase = .payloadPhase ∧ t.status = .busy)

/-- 41_encoder.md R150: the `ENCODE` payload step writes the next payload bit. -/
def Obligations.EncodePayloadStepWritesAPayloadBit : Prop :=
  ∀ s : State, s.Inv → s.phase = .payloadPhase → s.op = 1 → hostWaits s.host = true → s.imgHeld →
    s.payHeld s.len.toNat →
    ∃ t, step s = .next t ∧ OperandsKept s t ∧ t.host = s.host ∧
      t.op = s.op ∧ t.len = s.len ∧ t.acc = s.acc ∧ t.pay = s.pay ∧
      t.cursor.toNat = s.cursor.toNat + 1 ∧
      (∀ a, t.img.read a =
        if a = cellAddress s.params.nch s.cursor.toNat then
          (s.img.read a &&& 0xFE#8) |||
            (if ((s.pay.read ((s.cursor.toNat - 32) / 8)).toNat >>> ((s.cursor.toNat - 32) % 8)) % 2 = 1
              then 1#8 else 0#8)
        else s.img.read a) ∧
      (s.cursor.toNat + 1 < 32 + 8 * s.len.toNat → t.phase = .payloadPhase ∧ t.status = .busy) ∧
      (s.cursor.toNat + 1 = 32 + 8 * s.len.toNat → t.phase = .idle ∧ t.status = .ok)

/-- 42_decoder.md R176, R177, R178: the `DECODE` prefix step adds bit `b` to `LEN`; the last one validates the
completed length, invalid before empty, and compares exactly. -/
def Obligations.DecodePrefixStepReadsALengthBit : Prop :=
  ∀ s : State, s.Inv → s.phase = .prefixPhase → s.op = 2 → hostWaits s.host = true → s.imgHeld →
    ∃ t, step s = .next t ∧ OperandsKept s t ∧ t.host = s.host ∧
      t.op = s.op ∧ t.acc = 0 ∧ t.img = s.img ∧ t.pay = s.pay ∧
      t.cursor.toNat = s.cursor.toNat + 1 ∧
      t.len.toNat = s.len.toNat + (if s.lsbAt s.cursor.toNat then 2 ^ s.cursor.toNat else 0) ∧
      (s.cursor.toNat < 31 → t.phase = .prefixPhase ∧ t.status = .busy) ∧
      (s.cursor.toNat = 31 → s.w.toNat * s.h.toNat * 3 < 32 + 8 * t.len.toNat →
        t.phase = .idle ∧ t.status = .invalidLengthError) ∧
      (s.cursor.toNat = 31 → 32 + 8 * t.len.toNat ≤ s.w.toNat * s.h.toNat * 3 → t.len.toNat = 0 →
        t.phase = .idle ∧ t.status = .emptyPayloadWarning) ∧
      (s.cursor.toNat = 31 → 32 + 8 * t.len.toNat ≤ s.w.toNat * s.h.toNat * 3 → 1 ≤ t.len.toNat →
        t.phase = .payloadPhase ∧ t.status = .busy)

/-- 42_decoder.md R179, R180: the `DECODE` payload step adds its bit to `ACC`; the eighth bit of a byte stores it
to `PAY` and clears `ACC`; the last frame bit completes the command (R181). -/
def Obligations.DecodePayloadStepReadsAPayloadBit : Prop :=
  ∀ s : State, s.Inv → s.phase = .payloadPhase → s.op = 2 → hostWaits s.host = true → s.imgHeld →
    s.payHeld s.len.toNat →
    ∃ t, step s = .next t ∧ OperandsKept s t ∧ t.host = s.host ∧
      t.op = s.op ∧ t.len = s.len ∧ t.img = s.img ∧
      t.cursor.toNat = s.cursor.toNat + 1 ∧
      ((s.cursor.toNat - 32) % 8 < 7 →
        t.acc.toNat = s.acc.toNat +
          (if s.lsbAt s.cursor.toNat then 2 ^ ((s.cursor.toNat - 32) % 8) else 0) ∧
        ∀ k, t.pay.read k = s.pay.read k) ∧
      ((s.cursor.toNat - 32) % 8 = 7 →
        t.acc = 0 ∧
        (t.pay.read ((s.cursor.toNat - 32) / 8)).toNat =
          s.acc.toNat + (if s.lsbAt s.cursor.toNat then 2 ^ 7 else 0) ∧
        ∀ k, k ≠ (s.cursor.toNat - 32) / 8 → t.pay.read k = s.pay.read k) ∧
      (s.cursor.toNat + 1 < 32 + 8 * s.len.toNat → t.phase = .payloadPhase ∧ t.status = .busy) ∧
      (s.cursor.toNat + 1 = 32 + 8 * s.len.toNat → t.phase = .idle ∧ t.status = .ok)

/-! ### Invariants -/

/-- 10_state.md R41, R50: the invariant holds in the model's reset state, and in every state after a reset whatever
the unspecified registers and memories hold, as long as the memories are in canonical form. -/
def Obligations.ResetMeetsTheInvariant : Prop :=
  State.reset.Inv ∧
  ∀ s : State, s.AfterReset → s.img.wf = true → s.pay.wf = true → s.Inv

/-- 10_state.md R41: every step, of the core or of the host, keeps the invariant. -/
def Obligations.EveryStepKeepsTheInvariant : Prop :=
  ∀ s t : State, s.Inv → step s = .next t → t.Inv

/-- 41_encoder.md R154, 42_decoder.md R182, 70_reset_and_hazards.md R266: a command in progress never stops: under
the size duties the core's step answers a next state. -/
def Obligations.CommandInProgressNeverStops : Prop :=
  ∀ s : State, s.Inv → s.busyDuty → s.phase ≠ .idle → hostWaits s.host = true → ∃ t, step s = .next t

/-- From a state that meets the invariant a step stops only where the spec leaves it: `ADDR` with `W = 0` (U1), or
an access beyond a memory's physical size (U10). -/
def Obligations.OnlyTheSpecsStopsAreReachable : Prop :=
  ∀ s : State, s.Inv →
    (∀ r, step s = .refused r → r = .addrWidthZero ∧ s.phase = .idle ∧ s.w.toNat = 0 ∧
      ∃ v rest, s.host = .wr 0x0 v :: rest ∧ v % 4 = 0) ∧
    (∀ f, step s = .fault f →
      (s.phase ≠ .idle ∧ ¬ s.busyDuty ∧ f ≠ .noSequencerRow) ∨
      (∃ p bytes rest, s.host = .imgWrite p bytes :: rest ∧ f = .imgOutOfRange p ∧
        fits s.params.imgBytes p bytes.length = false) ∨
      (∃ p n rest, s.host = .imgRead p n :: rest ∧ f = .imgOutOfRange p ∧ fits s.params.imgBytes p n = false) ∨
      (∃ p bytes rest, s.host = .payWrite p bytes :: rest ∧ f = .payOutOfRange p ∧
        fits s.params.payBytes p bytes.length = false) ∨
      (∃ p n rest, s.host = .payRead p n :: rest ∧ f = .payOutOfRange p ∧ fits s.params.payBytes p n = false))

/-- 10_state.md R52: no expression of a rule exceeds the register or intermediate that holds it. -/
def Obligations.WidthsAreSufficient : Prop :=
  ∀ s : State,
    s.w.toNat ≤ 2 ^ 32 - 1 ∧ s.h.toNat ≤ 2 ^ 32 - 1 ∧ s.plen.toNat ≤ 2 ^ 64 - 1 ∧
    s.w.toNat * s.h.toNat * 3 ≤ 55340232195358851075 ∧ (55340232195358851075 : Nat) < 2 ^ 66 ∧
    32 + 8 * s.len.toNat ≤ 34359738392 ∧ (34359738392 : Nat) < 2 ^ 36 ∧
    s.b.toNat / 3 < 2 ^ 65 ∧ s.b.toNat / 3 / s.w.toNat < 2 ^ 65 ∧
    (1 ≤ s.w.toNat → s.b.toNat / 3 % s.w.toNat < s.w.toNat) ∧
    s.b.toNat % 3 ≤ 2 ∧
    (s.SeqInv → s.phase ≠ .idle → s.cursor.toNat + 1 < 2 ^ 36) ∧
    (s.SeqInv → s.phase = .payloadPhase →
      (s.cursor.toNat - 32) / 8 < s.len.toNat ∧ (s.cursor.toNat - 32) / 8 < 2 ^ 32) ∧
    (∀ (b : Nat) (t : Triple), b < s.w.toNat * s.h.toNat * 3 → addr b s.w.toNat = some t →
      lin s t < s.w.toNat * s.h.toNat * s.params.nch)

/-! ### Whole-machine rules -/

/-- 70_reset_and_hazards.md R260: reset is the only way `STATUS.CODE` becomes `NONE`. -/
def Obligations.OnlyResetGivesStatusNone : Prop :=
  ∀ s t : State, step s = .next t → t.status = .none → s.status = .none ∨ ∃ rest, s.host = .reset :: rest

/-- 60_exceptions.md R227, U16: the core never writes `OUTPUT_WRITE_ERROR`. -/
def Obligations.CoreNeverReportsOutputWriteError : Prop :=
  ∀ s t : State, step s = .next t → t.status = .outputWriteError → s.status = .outputWriteError

/-- 10_state.md R21, R41, 70_reset_and_hazards.md R270: each of `ENV`, `W`, `H`, `B`, `PLEN` changes only by a host write to
its own index while idle or by a reset, never by a step of the core, a start step included, and the machine's parameters
never change (log 3). -/
def Obligations.OperandRegistersBelongToTheHost : Prop :=
  ∀ s t : State, step s = .next t →
    t.params = s.params ∧
    ((∃ rest, s.host = .reset :: rest) ∨
      ((t.env = s.env ∨ (s.phase = .idle ∧ ∃ v rest, s.host = .wr 0x4 v :: rest)) ∧
        (t.w = s.w ∨ (s.phase = .idle ∧ ∃ v rest, s.host = .wr 0x5 v :: rest)) ∧
        (t.h = s.h ∨ (s.phase = .idle ∧ ∃ v rest, s.host = .wr 0x6 v :: rest)) ∧
        (t.b = s.b ∨ (s.phase = .idle ∧ ∃ v rest, s.host = .wr 0x7 v :: rest)) ∧
        (t.plen = s.plen ∨ (s.phase = .idle ∧ ∃ v rest, s.host = .wr 0x8 v :: rest))))

/-- 10_state.md R32: `X`, `Y`, `CH` are written only by `ADDR` (and lost at a reset). -/
def Obligations.AddrResultsAreWrittenOnlyByAddr : Prop :=
  ∀ s t : State, step s = .next t →
    (t.x = s.x ∧ t.y = s.y ∧ t.ch = s.ch) ∨
    (s.phase = .idle ∧ ∃ v rest, s.host = .wr 0x0 v :: rest ∧ v % 4 = 0) ∨
    (∃ rest, s.host = .reset :: rest)

/-- 10_state.md R31: `CURSOR` stays, goes on by exactly 1, or is set to 0 by an idle block's start step or a
reset. -/
def Obligations.CursorOnlyAdvancesByOne : Prop :=
  ∀ s t : State, s.Inv → step s = .next t →
    t.cursor = s.cursor ∨
    (s.phase ≠ .idle ∧ t.cursor.toNat = s.cursor.toNat + 1) ∨
    (t.cursor = 0 ∧ ((s.phase = .idle ∧ ∃ v rest, s.host = .wr 0x0 v :: rest) ∨ ∃ rest, s.host = .reset :: rest))

/-- 20_memory.md R65, 44_sequencing_and_access.md R212: what each command reads and writes of the two memories.
A start step, `ADDR` whole among them, neither reads nor writes one: with other contents it does the same and leaves
them. A core step of `ENCODE` (the core's turn, or the model's marker `coreStep` before a read, log 4) reads of `PAY` only
bytes below `LEN` and writes none; of `IMG` it reads and writes one pixel of the frame. One of `DECODE` reads of `IMG` only
the channel byte of its frame bit and writes none; `PAY` it never reads, and it writes at most one byte there, below `LEN`
and in the payload phase. -/
def Obligations.CommandsReachOnlyTheirMemory : Prop :=
  (∀ (i : Instr) (s t : State), exec i s = .next t →
    t.img = s.img ∧ t.pay = s.pay ∧
      ∀ m p : Memory, exec i { s with img := m, pay := p } = .next { t with img := m, pay := p }) ∧
  (∀ s t : State, s.img.wf = true → s.phase ≠ .idle →
    (hostWaits s.host = true ∨ ∃ rest, s.host = .coreStep :: rest) → step s = .next t →
    (s.op = 1 →
      t.pay = s.pay ∧
      (∀ p : Memory, (∀ k, k < s.len.toNat → p.read k = s.pay.read k) →
        step { s with pay := p } = .next { t with pay := p }) ∧
      s.cursor.toNat < 32 + 8 * s.len.toNat ∧
      (∀ a, a / s.params.nch ≠ s.cursor.toNat / 3 → t.img.read a = s.img.read a) ∧
      (∀ m : Memory, m.wf = true → ∃ q : Memory, step { s with img := m } = .next { t with img := q } ∧
        (∀ a, a / s.params.nch ≠ s.cursor.toNat / 3 → q.read a = m.read a) ∧
        ((∀ a, a / s.params.nch = s.cursor.toNat / 3 → m.read a = s.img.read a) →
          ∀ a, a / s.params.nch = s.cursor.toNat / 3 → q.read a = t.img.read a))) ∧
    (s.op = 2 →
      t.img = s.img ∧
      (∀ m : Memory,
        m.read (cellAddress s.params.nch s.cursor.toNat) = s.img.read (cellAddress s.params.nch s.cursor.toNat) →
        step { s with img := m } = .next { t with img := m }) ∧
      ((t.pay = s.pay ∧ ∀ p : Memory, step { s with pay := p } = .next { t with pay := p }) ∨
        ∃ k v, s.phase = .payloadPhase ∧ k < s.len.toNat ∧ t.pay = s.pay.write k v ∧
          ∀ p : Memory, step { s with pay := p } = .next { t with pay := p.write k v })))

/-! ### The host interface -/

/-- 10_state.md R42, 20_memory.md R76, 70_reset_and_hazards.md R270: while busy, a write to `CMD` or to a `RW` register
and a memory access have no step: the core takes its own, and the move stays pending. -/
def Obligations.HostMovesWaitWhileBusy : Prop :=
  ∀ (s : State) (a : HostAction) (rest : List HostAction), s.phase ≠ .idle → s.host = a :: rest →
    ((∃ i v, a = .wr i v ∧ (i = 0x0 ∨ i = 0x4 ∨ i = 0x5 ∨ i = 0x6 ∨ i = 0x7 ∨ i = 0x8)) ∨
      (∃ p bytes, a = .imgWrite p bytes ∨ a = .payWrite p bytes) ∨
      (∃ p n, a = .imgRead p n ∨ a = .payRead p n)) →
    step s = bitStep s ∧ ∀ t, step s = .next t → t.host = s.host

/-- 10_state.md R42: a host read of a register at index 0x1 to 0xD returns its current value in any phase and changes
nothing of the block (the model hands the value to the host in `seen`, log 5). -/
def Obligations.HostReadReturnsTheCurrentValue : Prop :=
  ∀ (s : State) (i : RegIndex) (rest : List HostAction), s.host = .rd i :: rest →
    (i = 0x1 → step s = .next { s with host := rest, seen := s.seen ++ [.reg i s.status.code.toNat] }) ∧
    (i = 0x2 → step s = .next { s with host := rest, seen := s.seen ++ [.reg i s.phase.code.toNat] }) ∧
    (i = 0x3 → step s = .next { s with host := rest, seen := s.seen ++ [.reg i s.op.toNat] }) ∧
    (i = 0x4 → step s = .next { s with host := rest, seen := s.seen ++ [.reg i s.env.toNat] }) ∧
    (i = 0x5 → step s = .next { s with host := rest, seen := s.seen ++ [.reg i s.w.toNat] }) ∧
    (i = 0x6 → step s = .next { s with host := rest, seen := s.seen ++ [.reg i s.h.toNat] }) ∧
    (i = 0x7 → step s = .next { s with host := rest, seen := s.seen ++ [.reg i s.b.toNat] }) ∧
    (i = 0x8 → step s = .next { s with host := rest, seen := s.seen ++ [.reg i s.plen.toNat] }) ∧
    (i = 0x9 → step s = .next { s with host := rest, seen := s.seen ++ [.reg i s.len.toNat] }) ∧
    (i = 0xA → step s = .next { s with host := rest, seen := s.seen ++ [.reg i s.cursor.toNat] }) ∧
    (i = 0xB → step s = .next { s with host := rest, seen := s.seen ++ [.reg i s.x.toNat] }) ∧
    (i = 0xC → step s = .next { s with host := rest, seen := s.seen ++ [.reg i s.y.toNat] }) ∧
    (i = 0xD → step s = .next { s with host := rest, seen := s.seen ++ [.reg i s.ch.toNat] })

/-- 10_state.md R42: while idle, a host write to a `RW` register (indexes 0x4 to 0x8) stores `v % 2^width`; a write to an
`RO` register is ignored in any phase. -/
def Obligations.HostWriteStoresModuloTheWidth : Prop :=
  ∀ (s : State) (i : RegIndex) (v : Nat) (rest : List HostAction), s.host = .wr i v :: rest →
    (s.phase = .idle → (i = 0x4 ∨ i = 0x5 ∨ i = 0x6 ∨ i = 0x7 ∨ i = 0x8) →
      ∃ t, step s = .next t ∧
        (i = 0x4 → t = { s with host := rest, env := t.env } ∧ t.env.toNat = v % 2 ^ 2) ∧
        (i = 0x5 → t = { s with host := rest, w := t.w } ∧ t.w.toNat = v % 2 ^ 32) ∧
        (i = 0x6 → t = { s with host := rest, h := t.h } ∧ t.h.toNat = v % 2 ^ 32) ∧
        (i = 0x7 → t = { s with host := rest, b := t.b } ∧ t.b.toNat = v % 2 ^ 66) ∧
        (i = 0x8 → t = { s with host := rest, plen := t.plen } ∧ t.plen.toNat = v % 2 ^ 64)) ∧
    ((i = 0x1 ∨ i = 0x2 ∨ i = 0x3 ∨ i = 0x9 ∨ i = 0xA ∨ i = 0xB ∨ i = 0xC ∨ i = 0xD) →
      step s = .next { s with host := rest })

/-- 20_memory.md R75, R76: while idle, what the host writes to a memory it reads back, and the bytes outside are as
before. -/
def Obligations.HostReadsBackWhatItWrote : Prop :=
  ∀ (s : State) (p : Nat) (bytes : List Byte) (rest : List HostAction),
    s.phase = .idle → s.img.wf = true → s.pay.wf = true →
    (s.host = .imgWrite p bytes :: .imgRead p bytes.length :: rest →
      fits s.params.imgBytes p bytes.length = true →
      ∃ t : State, Host.Core.run core 2 s = .next t ∧ t.host = rest ∧ t.seen = s.seen ++ [.img p bytes] ∧
        t.pay = s.pay ∧ ∀ a, (a < p ∨ p + bytes.length ≤ a) → t.img.read a = s.img.read a) ∧
    (s.host = .payWrite p bytes :: .payRead p bytes.length :: rest →
      fits s.params.payBytes p bytes.length = true →
      ∃ t : State, Host.Core.run core 2 s = .next t ∧ t.host = rest ∧ t.seen = s.seen ++ [.pay p bytes] ∧
        t.img = s.img ∧ ∀ a, (a < p ∨ p + bytes.length ≤ a) → t.pay.read a = s.pay.read a)

/-- 70_reset_and_hazards.md R260, R262: a reset, in any phase, leaves the control state at its reset values and reports
nothing. It abandons a command in progress, which leaves alone the memory that the command does not write; of the other
memory nothing is claimed (U12). -/
def Obligations.ResetAbandonsTheCommand : Prop :=
  ∀ (s : State) (rest : List HostAction), s.host = .reset :: rest →
    ∃ t, step s = .next t ∧ t.phase = .idle ∧ t.status = .none ∧ t.op = 0 ∧ t.cursor = 0 ∧ t.acc = 0 ∧
      (s.phase ≠ .idle → s.op = 1 → t.pay = s.pay) ∧ (s.phase ≠ .idle → s.op = 2 → t.img = s.img) ∧
      t.params = s.params ∧ t.host = rest ∧ t.seen = s.seen

/-- 10_state.md R50: the values the spec gives after reset. -/
def Obligations.ResetStateHoldsTheSpecsValues : Prop :=
  State.reset.phase = .idle ∧ State.reset.phase.code = 0 ∧ State.reset.status = .none ∧
  State.reset.status.code = 0x0 ∧ State.reset.op = 0 ∧ State.reset.cursor = 0 ∧ State.reset.acc = 0

/-! ### Whole commands -/

/-- 41_encoder.md R160, R161, R153: from the write to `CMD`, `ENCODE` reaches the state of the big-step function after
exactly its number of steps, and is busy at every step before the last. -/
def Obligations.EncodeReachesItsBigStepResult : Prop :=
  ∀ (s : State) (v : Nat) (rest : List HostAction),
    s.img.wf = true → s.phase = .idle → s.host = .wr 0x0 v :: rest → decode (commandWord v) = .command .encode →
    hostWaits rest = true → s.encodeDuty →
    (∃ t : State, Host.Core.run core (encodeSteps s) s = .next t ∧ t.host = rest ∧ EncodeEnd s t) ∧
    (∀ n, 1 ≤ n → n < encodeSteps s → ∃ u : State, Host.Core.run core n s = .next u ∧ u.phase ≠ .idle)

/-- 42_decoder.md R190, R191, R183: the same for `DECODE`. -/
def Obligations.DecodeReachesItsBigStepResult : Prop :=
  ∀ (s : State) (v : Nat) (rest : List HostAction),
    s.img.wf = true → s.pay.wf = true → s.phase = .idle → s.host = .wr 0x0 v :: rest →
    decode (commandWord v) = .command .decode → hostWaits rest = true → s.decodeDuty →
    (∃ t : State, Host.Core.run core (decodeSteps s) s = .next t ∧ t.host = rest ∧ DecodeEnd s t) ∧
    (∀ n, 1 ≤ n → n < decodeSteps s → ∃ u : State, Host.Core.run core n s = .next u ∧ u.phase ≠ .idle)

/-- 43_framing_invariants.md R200: the round trip. `ENCODE` completes with `OK`; from any state `u` with the same
`IMG`, `W`, `H` and parameters, with `IMG_OK = 1` and with anything else whatever (its `PAY` too), `DECODE` completes
with the payload. -/
def Obligations.DecodeAfterEncodeReturnsThePayload : Prop :=
  ∀ (s : State) (v : Nat) (rest : List HostAction),
    s.Inv → s.phase = .idle → s.host = .wr 0x0 v :: rest → decode (commandWord v) = .command .encode →
    hostWaits rest = true → s.env = 3 → s.plen.toNat ≤ 2 ^ 32 - 1 →
    32 + 8 * s.plen.toNat ≤ s.w.toNat * s.h.toNat * 3 → s.imgHeld → s.payHeld s.plen.toNat →
    ∃ t : State, Host.Core.run core (33 + 8 * s.plen.toNat) s = .next t ∧ t.phase = .idle ∧ t.status = .ok ∧
      ∀ (u : State) (v' : Nat) (rest' : List HostAction),
        u.Inv → u.phase = .idle → u.img = t.img → u.w = s.w → u.h = s.h → u.params = s.params → u.imgOk = true →
        u.decodeDuty → u.host = .wr 0x0 v' :: rest' → decode (commandWord v') = .command .decode →
        hostWaits rest' = true →
        ∃ x : State, Host.Core.run core (33 + 8 * s.plen.toNat) u = .next x ∧ x.host = rest' ∧ x.phase = .idle ∧
          x.len.toNat = s.plen.toNat ∧
          (1 ≤ s.plen.toNat → x.status = .ok ∧ ∀ k, k < s.plen.toNat → x.pay.read k = s.pay.read k) ∧
          (s.plen.toNat = 0 → x.status = .emptyPayloadWarning)

/-- 43_framing_invariants.md R203: the frame does not depend on the dimensions it is read with: on the unchanged bytes,
other values of `W` and `H` still give the payload as long as their capacity holds it, and `INVALID_LENGTH_ERROR`
otherwise. -/
def Obligations.DecodeWithOtherDimensions : Prop :=
  ∀ (s : State) (v : Nat) (rest : List HostAction),
    s.Inv → s.phase = .idle → s.host = .wr 0x0 v :: rest → decode (commandWord v) = .command .encode →
    hostWaits rest = true → s.env = 3 → s.plen.toNat ≤ 2 ^ 32 - 1 →
    32 + 8 * s.plen.toNat ≤ s.w.toNat * s.h.toNat * 3 → s.imgHeld → s.payHeld s.plen.toNat →
    ∃ t : State, Host.Core.run core (33 + 8 * s.plen.toNat) s = .next t ∧ t.phase = .idle ∧ t.status = .ok ∧
      ∀ (u : State) (v' : Nat) (rest' : List HostAction),
        u.Inv → u.phase = .idle → u.img = t.img → u.params = s.params → u.imgOk = true → u.decodeDuty →
        u.host = .wr 0x0 v' :: rest' → decode (commandWord v') = .command .decode → hostWaits rest' = true →
        ∃ (n : Nat) (x : State), Host.Core.run core n u = .next x ∧ x.host = rest' ∧ x.phase = .idle ∧
          (32 + 8 * s.plen.toNat ≤ u.w.toNat * u.h.toNat * 3 →
            x.len.toNat = s.plen.toNat ∧
            (1 ≤ s.plen.toNat → x.status = .ok ∧ ∀ k, k < s.plen.toNat → x.pay.read k = s.pay.read k) ∧
            (s.plen.toNat = 0 → x.status = .emptyPayloadWarning)) ∧
          (u.w.toNat * u.h.toNat * 3 < 32 + 8 * s.plen.toNat → x.status = .invalidLengthError)

/-- 42_decoder.md R184: only LSBs matter. An image that agrees in bit 0 of the cells of frame bits 0 to 31 and, when the
declared length is valid, of the declared payload's bits, gives the same end state after the same number of steps (R183),
whatever else it holds. -/
def Obligations.DecodeDependsOnlyOnLsbs : Prop :=
  ∀ (s : State) (m : Memory) (v : Nat) (rest : List HostAction),
    s.Inv → m.wf = true → s.phase = .idle → s.host = .wr 0x0 v :: rest →
    decode (commandWord v) = .command .decode → hostWaits rest = true → s.decodeDuty →
    (∀ i, i < 32 → ({ s with img := m } : State).lsbAt i = s.lsbAt i) →
    (32 + 8 * s.declaredLength ≤ s.w.toNat * s.h.toNat * 3 →
      ∀ i, i < 32 + 8 * s.declaredLength → ({ s with img := m } : State).lsbAt i = s.lsbAt i) →
    1 ≤ decodeSteps s ∧
    ∃ t : State, Host.Core.run core (decodeSteps s) s = .next t ∧ t.host = rest ∧ t.phase = .idle ∧ t.op = 2 ∧
      Host.Core.run core (decodeSteps s) { s with img := m } = .next { t with img := m }

/-- 20_memory.md R73: running `ENCODE` twice leaves the same `IMG` as running it once. -/
def Obligations.EncodeTwiceIsEncodeOnce : Prop :=
  ∀ (s : State) (v v' : Nat) (rest : List HostAction),
    s.Inv → s.phase = .idle → s.host = .wr 0x0 v :: .wr 0x0 v' :: rest →
    decode (commandWord v) = .command .encode → decode (commandWord v') = .command .encode →
    hostWaits rest = true → s.encodeDuty →
    ∃ t t' : State, Host.Core.run core (encodeSteps s) s = .next t ∧ t.phase = .idle ∧
      Host.Core.run core (encodeSteps s + encodeSteps s) s = .next t' ∧ t'.phase = .idle ∧ t'.img = t.img

/-- 41_encoder.md R153, 42_decoder.md R183, 10_state.md R31: every command in progress that the host leaves alone is idle
again after at most `2^35 + 24` steps. -/
def Obligations.EveryCommandTerminates : Prop :=
  ∀ s : State, s.Inv → s.busyDuty → s.phase ≠ .idle → hostWaits s.host = true →
    ∃ (n : Nat) (t : State), n ≤ 2 ^ 35 + 24 ∧ Host.Core.run core n s = .next t ∧ t.phase = .idle

/-! ### Host reads of memory -/

/-- 20_memory.md R75, R76: while idle, a host read of `n` bytes from any address inside the memory hands the host the bytes
that stand there (in `seen`, log 5), whatever came before, and changes nothing of the block. -/
def Obligations.HostMemoryReadReturnsTheCurrentBytes : Prop :=
  ∀ (s : State) (p n : Nat) (rest : List HostAction), s.phase = .idle →
    (s.host = .imgRead p n :: rest → fits s.params.imgBytes p n = true →
      ∃ bytes : List Byte,
        step s = .next { s with host := rest, seen := s.seen ++ [.img p bytes] } ∧
        bytes.length = n ∧ ∀ j (h : j < bytes.length), bytes[j] = s.img.read (p + j)) ∧
    (s.host = .payRead p n :: rest → fits s.params.payBytes p n = true →
      ∃ bytes : List Byte,
        step s = .next { s with host := rest, seen := s.seen ++ [.pay p bytes] } ∧
        bytes.length = n ∧ ∀ j (h : j < bytes.length), bytes[j] = s.pay.read (p + j))

/-! ### `WAIT` -/

/-- 30_encoding.md R111, 10_state.md R42: each turn of `WAIT` is the host's `RD PHASE`. While idle it returns 0 and `WAIT` is
over: the step is the one of `RD PHASE` in its place. While busy it returns a value other than 0, changes nothing else of the
block, and `WAIT` goes on after one step of the core (that it is one is the model's choice, log 20). -/
def Obligations.WaitIsARepeatedReadOfPhase : Prop :=
  ∀ (s : State) (rest : List HostAction), s.host = .wait :: rest →
    (s.phase = .idle →
      step s = .next { s with host := rest, seen := s.seen ++ [.reg 0x2 0] } ∧
      step s = step { s with host := .rd 0x2 :: rest }) ∧
    (s.phase ≠ .idle →
      s.phase.code.toNat ≠ 0 ∧
      step s = .next { s with host := .coreStep :: .wait :: rest, seen := s.seen ++ [.reg 0x2 s.phase.code.toNat] } ∧
      step s = step { s with host := .rd 0x2 :: .coreStep :: .wait :: rest })

/-- 30_encoding.md R111, 41_encoder.md R153, 42_decoder.md R183, 70_reset_and_hazards.md R271: a `WAIT` in the middle of any
command ends. When it does, the block is where the command alone, without a host, first becomes idle again, after `k` bit
steps; every read of `PHASE` but the last returned a value other than 0, and the last 0. -/
def Obligations.WaitEndsWhenTheCommandHasEnded : Prop :=
  ∀ (s : State) (rest : List HostAction), s.Inv → s.busyDuty → s.phase ≠ .idle → s.host = .wait :: rest →
    ∃ (k n : Nat) (t u : State) (polls : List HostSeen), k ≤ 2 ^ 35 + 24 ∧
      Host.Core.run core k { s with host := [] } = .next u ∧ u.phase = .idle ∧
      (∀ j, j < k → ∃ v, Host.Core.run core j { s with host := [] } = .next v ∧ v.phase ≠ .idle) ∧
      Host.Core.run core n s = .next t ∧
      t = { u with host := rest, seen := s.seen ++ polls ++ [.reg 0x2 0] } ∧
      ∀ o ∈ polls, ∃ c, c ≠ 0 ∧ o = .reg 0x2 c
end

