-- ==== Sys2Proof/Laws/State.lean ====
section
/-! SUPPORT. One lemma per field per register update, so that no later proof unfolds a record update. -/

namespace Sys2Proof.Machine

/-! ### `finish` -/

@[simp] theorem State.finish_status (s : State) (k : ResultKind) : (s.finish k).status = k := rfl
@[simp] theorem State.finish_phase (s : State) (k : ResultKind) : (s.finish k).phase = .idle := rfl
@[simp] theorem State.finish_op (s : State) (k : ResultKind) : (s.finish k).op = s.op := rfl
@[simp] theorem State.finish_env (s : State) (k : ResultKind) : (s.finish k).env = s.env := rfl
@[simp] theorem State.finish_w (s : State) (k : ResultKind) : (s.finish k).w = s.w := rfl
@[simp] theorem State.finish_h (s : State) (k : ResultKind) : (s.finish k).h = s.h := rfl
@[simp] theorem State.finish_b (s : State) (k : ResultKind) : (s.finish k).b = s.b := rfl
@[simp] theorem State.finish_plen (s : State) (k : ResultKind) : (s.finish k).plen = s.plen := rfl
@[simp] theorem State.finish_len (s : State) (k : ResultKind) : (s.finish k).len = s.len := rfl
@[simp] theorem State.finish_cursor (s : State) (k : ResultKind) : (s.finish k).cursor = s.cursor := rfl
@[simp] theorem State.finish_x (s : State) (k : ResultKind) : (s.finish k).x = s.x := rfl
@[simp] theorem State.finish_y (s : State) (k : ResultKind) : (s.finish k).y = s.y := rfl
@[simp] theorem State.finish_ch (s : State) (k : ResultKind) : (s.finish k).ch = s.ch := rfl
@[simp] theorem State.finish_acc (s : State) (k : ResultKind) : (s.finish k).acc = s.acc := rfl
@[simp] theorem State.finish_img (s : State) (k : ResultKind) : (s.finish k).img = s.img := rfl
@[simp] theorem State.finish_pay (s : State) (k : ResultKind) : (s.finish k).pay = s.pay := rfl
@[simp] theorem State.finish_params (s : State) (k : ResultKind) : (s.finish k).params = s.params := rfl
@[simp] theorem State.finish_host (s : State) (k : ResultKind) : (s.finish k).host = s.host := rfl
@[simp] theorem State.finish_seen (s : State) (k : ResultKind) : (s.finish k).seen = s.seen := rfl
@[simp] theorem State.finish_draws (s : State) (k : ResultKind) : (s.finish k).draws = s.draws := rfl

/-! ### `setOp` -/

@[simp] theorem State.setOp_status (s : State) (o : Opcode) : (s.setOp o).status = s.status := rfl
@[simp] theorem State.setOp_phase (s : State) (o : Opcode) : (s.setOp o).phase = s.phase := rfl
@[simp] theorem State.setOp_op (s : State) (o : Opcode) : (s.setOp o).op = o := rfl
@[simp] theorem State.setOp_env (s : State) (o : Opcode) : (s.setOp o).env = s.env := rfl
@[simp] theorem State.setOp_w (s : State) (o : Opcode) : (s.setOp o).w = s.w := rfl
@[simp] theorem State.setOp_h (s : State) (o : Opcode) : (s.setOp o).h = s.h := rfl
@[simp] theorem State.setOp_b (s : State) (o : Opcode) : (s.setOp o).b = s.b := rfl
@[simp] theorem State.setOp_plen (s : State) (o : Opcode) : (s.setOp o).plen = s.plen := rfl
@[simp] theorem State.setOp_len (s : State) (o : Opcode) : (s.setOp o).len = s.len := rfl
@[simp] theorem State.setOp_cursor (s : State) (o : Opcode) : (s.setOp o).cursor = s.cursor := rfl
@[simp] theorem State.setOp_x (s : State) (o : Opcode) : (s.setOp o).x = s.x := rfl
@[simp] theorem State.setOp_y (s : State) (o : Opcode) : (s.setOp o).y = s.y := rfl
@[simp] theorem State.setOp_ch (s : State) (o : Opcode) : (s.setOp o).ch = s.ch := rfl
@[simp] theorem State.setOp_acc (s : State) (o : Opcode) : (s.setOp o).acc = s.acc := rfl
@[simp] theorem State.setOp_img (s : State) (o : Opcode) : (s.setOp o).img = s.img := rfl
@[simp] theorem State.setOp_pay (s : State) (o : Opcode) : (s.setOp o).pay = s.pay := rfl
@[simp] theorem State.setOp_params (s : State) (o : Opcode) : (s.setOp o).params = s.params := rfl
@[simp] theorem State.setOp_host (s : State) (o : Opcode) : (s.setOp o).host = s.host := rfl
@[simp] theorem State.setOp_seen (s : State) (o : Opcode) : (s.setOp o).seen = s.seen := rfl
@[simp] theorem State.setOp_draws (s : State) (o : Opcode) : (s.setOp o).draws = s.draws := rfl

/-! ### `accept` -/

@[simp] theorem State.accept_status (s : State) (l : BitVec 32) : (s.accept l).status = .busy := rfl
@[simp] theorem State.accept_phase (s : State) (l : BitVec 32) : (s.accept l).phase = .prefixPhase := rfl
@[simp] theorem State.accept_op (s : State) (l : BitVec 32) : (s.accept l).op = s.op := rfl
@[simp] theorem State.accept_env (s : State) (l : BitVec 32) : (s.accept l).env = s.env := rfl
@[simp] theorem State.accept_w (s : State) (l : BitVec 32) : (s.accept l).w = s.w := rfl
@[simp] theorem State.accept_h (s : State) (l : BitVec 32) : (s.accept l).h = s.h := rfl
@[simp] theorem State.accept_b (s : State) (l : BitVec 32) : (s.accept l).b = s.b := rfl
@[simp] theorem State.accept_plen (s : State) (l : BitVec 32) : (s.accept l).plen = s.plen := rfl
@[simp] theorem State.accept_len (s : State) (l : BitVec 32) : (s.accept l).len = l := rfl
@[simp] theorem State.accept_cursor (s : State) (l : BitVec 32) : (s.accept l).cursor = 0 := rfl
@[simp] theorem State.accept_x (s : State) (l : BitVec 32) : (s.accept l).x = s.x := rfl
@[simp] theorem State.accept_y (s : State) (l : BitVec 32) : (s.accept l).y = s.y := rfl
@[simp] theorem State.accept_ch (s : State) (l : BitVec 32) : (s.accept l).ch = s.ch := rfl
@[simp] theorem State.accept_acc (s : State) (l : BitVec 32) : (s.accept l).acc = s.acc := rfl
@[simp] theorem State.accept_img (s : State) (l : BitVec 32) : (s.accept l).img = s.img := rfl
@[simp] theorem State.accept_pay (s : State) (l : BitVec 32) : (s.accept l).pay = s.pay := rfl
@[simp] theorem State.accept_params (s : State) (l : BitVec 32) : (s.accept l).params = s.params := rfl
@[simp] theorem State.accept_host (s : State) (l : BitVec 32) : (s.accept l).host = s.host := rfl
@[simp] theorem State.accept_seen (s : State) (l : BitVec 32) : (s.accept l).seen = s.seen := rfl
@[simp] theorem State.accept_draws (s : State) (l : BitVec 32) : (s.accept l).draws = s.draws := rfl

/-! ### `setCursor` -/

@[simp] theorem State.setCursor_status (s : State) (n : Nat) : (s.setCursor n).status = s.status := rfl
@[simp] theorem State.setCursor_phase (s : State) (n : Nat) : (s.setCursor n).phase = s.phase := rfl
@[simp] theorem State.setCursor_op (s : State) (n : Nat) : (s.setCursor n).op = s.op := rfl
@[simp] theorem State.setCursor_env (s : State) (n : Nat) : (s.setCursor n).env = s.env := rfl
@[simp] theorem State.setCursor_w (s : State) (n : Nat) : (s.setCursor n).w = s.w := rfl
@[simp] theorem State.setCursor_h (s : State) (n : Nat) : (s.setCursor n).h = s.h := rfl
@[simp] theorem State.setCursor_b (s : State) (n : Nat) : (s.setCursor n).b = s.b := rfl
@[simp] theorem State.setCursor_plen (s : State) (n : Nat) : (s.setCursor n).plen = s.plen := rfl
@[simp] theorem State.setCursor_len (s : State) (n : Nat) : (s.setCursor n).len = s.len := rfl
@[simp] theorem State.setCursor_cursor (s : State) (n : Nat) : (s.setCursor n).cursor = BitVec.ofNat 36 n := rfl
@[simp] theorem State.setCursor_x (s : State) (n : Nat) : (s.setCursor n).x = s.x := rfl
@[simp] theorem State.setCursor_y (s : State) (n : Nat) : (s.setCursor n).y = s.y := rfl
@[simp] theorem State.setCursor_ch (s : State) (n : Nat) : (s.setCursor n).ch = s.ch := rfl
@[simp] theorem State.setCursor_acc (s : State) (n : Nat) : (s.setCursor n).acc = s.acc := rfl
@[simp] theorem State.setCursor_img (s : State) (n : Nat) : (s.setCursor n).img = s.img := rfl
@[simp] theorem State.setCursor_pay (s : State) (n : Nat) : (s.setCursor n).pay = s.pay := rfl
@[simp] theorem State.setCursor_params (s : State) (n : Nat) : (s.setCursor n).params = s.params := rfl
@[simp] theorem State.setCursor_host (s : State) (n : Nat) : (s.setCursor n).host = s.host := rfl
@[simp] theorem State.setCursor_seen (s : State) (n : Nat) : (s.setCursor n).seen = s.seen := rfl
@[simp] theorem State.setCursor_draws (s : State) (n : Nat) : (s.setCursor n).draws = s.draws := rfl

/-! ### `setPhase` -/

@[simp] theorem State.setPhase_status (s : State) (p : Phase) : (s.setPhase p).status = s.status := rfl
@[simp] theorem State.setPhase_phase (s : State) (p : Phase) : (s.setPhase p).phase = p := rfl
@[simp] theorem State.setPhase_op (s : State) (p : Phase) : (s.setPhase p).op = s.op := rfl
@[simp] theorem State.setPhase_env (s : State) (p : Phase) : (s.setPhase p).env = s.env := rfl
@[simp] theorem State.setPhase_w (s : State) (p : Phase) : (s.setPhase p).w = s.w := rfl
@[simp] theorem State.setPhase_h (s : State) (p : Phase) : (s.setPhase p).h = s.h := rfl
@[simp] theorem State.setPhase_b (s : State) (p : Phase) : (s.setPhase p).b = s.b := rfl
@[simp] theorem State.setPhase_plen (s : State) (p : Phase) : (s.setPhase p).plen = s.plen := rfl
@[simp] theorem State.setPhase_len (s : State) (p : Phase) : (s.setPhase p).len = s.len := rfl
@[simp] theorem State.setPhase_cursor (s : State) (p : Phase) : (s.setPhase p).cursor = s.cursor := rfl
@[simp] theorem State.setPhase_x (s : State) (p : Phase) : (s.setPhase p).x = s.x := rfl
@[simp] theorem State.setPhase_y (s : State) (p : Phase) : (s.setPhase p).y = s.y := rfl
@[simp] theorem State.setPhase_ch (s : State) (p : Phase) : (s.setPhase p).ch = s.ch := rfl
@[simp] theorem State.setPhase_acc (s : State) (p : Phase) : (s.setPhase p).acc = s.acc := rfl
@[simp] theorem State.setPhase_img (s : State) (p : Phase) : (s.setPhase p).img = s.img := rfl
@[simp] theorem State.setPhase_pay (s : State) (p : Phase) : (s.setPhase p).pay = s.pay := rfl
@[simp] theorem State.setPhase_params (s : State) (p : Phase) : (s.setPhase p).params = s.params := rfl
@[simp] theorem State.setPhase_host (s : State) (p : Phase) : (s.setPhase p).host = s.host := rfl
@[simp] theorem State.setPhase_seen (s : State) (p : Phase) : (s.setPhase p).seen = s.seen := rfl
@[simp] theorem State.setPhase_draws (s : State) (p : Phase) : (s.setPhase p).draws = s.draws := rfl

/-! ### `setLen` -/

@[simp] theorem State.setLen_status (s : State) (l : BitVec 32) : (s.setLen l).status = s.status := rfl
@[simp] theorem State.setLen_phase (s : State) (l : BitVec 32) : (s.setLen l).phase = s.phase := rfl
@[simp] theorem State.setLen_op (s : State) (l : BitVec 32) : (s.setLen l).op = s.op := rfl
@[simp] theorem State.setLen_env (s : State) (l : BitVec 32) : (s.setLen l).env = s.env := rfl
@[simp] theorem State.setLen_w (s : State) (l : BitVec 32) : (s.setLen l).w = s.w := rfl
@[simp] theorem State.setLen_h (s : State) (l : BitVec 32) : (s.setLen l).h = s.h := rfl
@[simp] theorem State.setLen_b (s : State) (l : BitVec 32) : (s.setLen l).b = s.b := rfl
@[simp] theorem State.setLen_plen (s : State) (l : BitVec 32) : (s.setLen l).plen = s.plen := rfl
@[simp] theorem State.setLen_len (s : State) (l : BitVec 32) : (s.setLen l).len = l := rfl
@[simp] theorem State.setLen_cursor (s : State) (l : BitVec 32) : (s.setLen l).cursor = s.cursor := rfl
@[simp] theorem State.setLen_x (s : State) (l : BitVec 32) : (s.setLen l).x = s.x := rfl
@[simp] theorem State.setLen_y (s : State) (l : BitVec 32) : (s.setLen l).y = s.y := rfl
@[simp] theorem State.setLen_ch (s : State) (l : BitVec 32) : (s.setLen l).ch = s.ch := rfl
@[simp] theorem State.setLen_acc (s : State) (l : BitVec 32) : (s.setLen l).acc = s.acc := rfl
@[simp] theorem State.setLen_img (s : State) (l : BitVec 32) : (s.setLen l).img = s.img := rfl
@[simp] theorem State.setLen_pay (s : State) (l : BitVec 32) : (s.setLen l).pay = s.pay := rfl
@[simp] theorem State.setLen_params (s : State) (l : BitVec 32) : (s.setLen l).params = s.params := rfl
@[simp] theorem State.setLen_host (s : State) (l : BitVec 32) : (s.setLen l).host = s.host := rfl
@[simp] theorem State.setLen_seen (s : State) (l : BitVec 32) : (s.setLen l).seen = s.seen := rfl
@[simp] theorem State.setLen_draws (s : State) (l : BitVec 32) : (s.setLen l).draws = s.draws := rfl

/-! ### `setAcc` -/

@[simp] theorem State.setAcc_status (s : State) (v : BitVec 8) : (s.setAcc v).status = s.status := rfl
@[simp] theorem State.setAcc_phase (s : State) (v : BitVec 8) : (s.setAcc v).phase = s.phase := rfl
@[simp] theorem State.setAcc_op (s : State) (v : BitVec 8) : (s.setAcc v).op = s.op := rfl
@[simp] theorem State.setAcc_env (s : State) (v : BitVec 8) : (s.setAcc v).env = s.env := rfl
@[simp] theorem State.setAcc_w (s : State) (v : BitVec 8) : (s.setAcc v).w = s.w := rfl
@[simp] theorem State.setAcc_h (s : State) (v : BitVec 8) : (s.setAcc v).h = s.h := rfl
@[simp] theorem State.setAcc_b (s : State) (v : BitVec 8) : (s.setAcc v).b = s.b := rfl
@[simp] theorem State.setAcc_plen (s : State) (v : BitVec 8) : (s.setAcc v).plen = s.plen := rfl
@[simp] theorem State.setAcc_len (s : State) (v : BitVec 8) : (s.setAcc v).len = s.len := rfl
@[simp] theorem State.setAcc_cursor (s : State) (v : BitVec 8) : (s.setAcc v).cursor = s.cursor := rfl
@[simp] theorem State.setAcc_x (s : State) (v : BitVec 8) : (s.setAcc v).x = s.x := rfl
@[simp] theorem State.setAcc_y (s : State) (v : BitVec 8) : (s.setAcc v).y = s.y := rfl
@[simp] theorem State.setAcc_ch (s : State) (v : BitVec 8) : (s.setAcc v).ch = s.ch := rfl
@[simp] theorem State.setAcc_acc (s : State) (v : BitVec 8) : (s.setAcc v).acc = v := rfl
@[simp] theorem State.setAcc_img (s : State) (v : BitVec 8) : (s.setAcc v).img = s.img := rfl
@[simp] theorem State.setAcc_pay (s : State) (v : BitVec 8) : (s.setAcc v).pay = s.pay := rfl
@[simp] theorem State.setAcc_params (s : State) (v : BitVec 8) : (s.setAcc v).params = s.params := rfl
@[simp] theorem State.setAcc_host (s : State) (v : BitVec 8) : (s.setAcc v).host = s.host := rfl
@[simp] theorem State.setAcc_seen (s : State) (v : BitVec 8) : (s.setAcc v).seen = s.seen := rfl
@[simp] theorem State.setAcc_draws (s : State) (v : BitVec 8) : (s.setAcc v).draws = s.draws := rfl

/-! ### `setTriple` -/

@[simp] theorem State.setTriple_status (s : State) (x y c : Nat) : (s.setTriple x y c).status = s.status := rfl
@[simp] theorem State.setTriple_phase (s : State) (x y c : Nat) : (s.setTriple x y c).phase = s.phase := rfl
@[simp] theorem State.setTriple_op (s : State) (x y c : Nat) : (s.setTriple x y c).op = s.op := rfl
@[simp] theorem State.setTriple_env (s : State) (x y c : Nat) : (s.setTriple x y c).env = s.env := rfl
@[simp] theorem State.setTriple_w (s : State) (x y c : Nat) : (s.setTriple x y c).w = s.w := rfl
@[simp] theorem State.setTriple_h (s : State) (x y c : Nat) : (s.setTriple x y c).h = s.h := rfl
@[simp] theorem State.setTriple_b (s : State) (x y c : Nat) : (s.setTriple x y c).b = s.b := rfl
@[simp] theorem State.setTriple_plen (s : State) (x y c : Nat) : (s.setTriple x y c).plen = s.plen := rfl
@[simp] theorem State.setTriple_len (s : State) (x y c : Nat) : (s.setTriple x y c).len = s.len := rfl
@[simp] theorem State.setTriple_cursor (s : State) (x y c : Nat) : (s.setTriple x y c).cursor = s.cursor := rfl
@[simp] theorem State.setTriple_x (s : State) (x y c : Nat) : (s.setTriple x y c).x = BitVec.ofNat 32 x := rfl
@[simp] theorem State.setTriple_y (s : State) (x y c : Nat) : (s.setTriple x y c).y = BitVec.ofNat 65 y := rfl
@[simp] theorem State.setTriple_ch (s : State) (x y c : Nat) : (s.setTriple x y c).ch = BitVec.ofNat 2 c := rfl
@[simp] theorem State.setTriple_acc (s : State) (x y c : Nat) : (s.setTriple x y c).acc = s.acc := rfl
@[simp] theorem State.setTriple_img (s : State) (x y c : Nat) : (s.setTriple x y c).img = s.img := rfl
@[simp] theorem State.setTriple_pay (s : State) (x y c : Nat) : (s.setTriple x y c).pay = s.pay := rfl
@[simp] theorem State.setTriple_params (s : State) (x y c : Nat) : (s.setTriple x y c).params = s.params := rfl
@[simp] theorem State.setTriple_host (s : State) (x y c : Nat) : (s.setTriple x y c).host = s.host := rfl
@[simp] theorem State.setTriple_seen (s : State) (x y c : Nat) : (s.setTriple x y c).seen = s.seen := rfl
@[simp] theorem State.setTriple_draws (s : State) (x y c : Nat) : (s.setTriple x y c).draws = s.draws := rfl

/-! ### `setImg` -/

@[simp] theorem State.setImg_status (s : State) (m : Memory) : (s.setImg m).status = s.status := rfl
@[simp] theorem State.setImg_phase (s : State) (m : Memory) : (s.setImg m).phase = s.phase := rfl
@[simp] theorem State.setImg_op (s : State) (m : Memory) : (s.setImg m).op = s.op := rfl
@[simp] theorem State.setImg_env (s : State) (m : Memory) : (s.setImg m).env = s.env := rfl
@[simp] theorem State.setImg_w (s : State) (m : Memory) : (s.setImg m).w = s.w := rfl
@[simp] theorem State.setImg_h (s : State) (m : Memory) : (s.setImg m).h = s.h := rfl
@[simp] theorem State.setImg_b (s : State) (m : Memory) : (s.setImg m).b = s.b := rfl
@[simp] theorem State.setImg_plen (s : State) (m : Memory) : (s.setImg m).plen = s.plen := rfl
@[simp] theorem State.setImg_len (s : State) (m : Memory) : (s.setImg m).len = s.len := rfl
@[simp] theorem State.setImg_cursor (s : State) (m : Memory) : (s.setImg m).cursor = s.cursor := rfl
@[simp] theorem State.setImg_x (s : State) (m : Memory) : (s.setImg m).x = s.x := rfl
@[simp] theorem State.setImg_y (s : State) (m : Memory) : (s.setImg m).y = s.y := rfl
@[simp] theorem State.setImg_ch (s : State) (m : Memory) : (s.setImg m).ch = s.ch := rfl
@[simp] theorem State.setImg_acc (s : State) (m : Memory) : (s.setImg m).acc = s.acc := rfl
@[simp] theorem State.setImg_img (s : State) (m : Memory) : (s.setImg m).img = m := rfl
@[simp] theorem State.setImg_pay (s : State) (m : Memory) : (s.setImg m).pay = s.pay := rfl
@[simp] theorem State.setImg_params (s : State) (m : Memory) : (s.setImg m).params = s.params := rfl
@[simp] theorem State.setImg_host (s : State) (m : Memory) : (s.setImg m).host = s.host := rfl
@[simp] theorem State.setImg_seen (s : State) (m : Memory) : (s.setImg m).seen = s.seen := rfl
@[simp] theorem State.setImg_draws (s : State) (m : Memory) : (s.setImg m).draws = s.draws := rfl

/-! ### `setPay` -/

@[simp] theorem State.setPay_status (s : State) (m : Memory) : (s.setPay m).status = s.status := rfl
@[simp] theorem State.setPay_phase (s : State) (m : Memory) : (s.setPay m).phase = s.phase := rfl
@[simp] theorem State.setPay_op (s : State) (m : Memory) : (s.setPay m).op = s.op := rfl
@[simp] theorem State.setPay_env (s : State) (m : Memory) : (s.setPay m).env = s.env := rfl
@[simp] theorem State.setPay_w (s : State) (m : Memory) : (s.setPay m).w = s.w := rfl
@[simp] theorem State.setPay_h (s : State) (m : Memory) : (s.setPay m).h = s.h := rfl
@[simp] theorem State.setPay_b (s : State) (m : Memory) : (s.setPay m).b = s.b := rfl
@[simp] theorem State.setPay_plen (s : State) (m : Memory) : (s.setPay m).plen = s.plen := rfl
@[simp] theorem State.setPay_len (s : State) (m : Memory) : (s.setPay m).len = s.len := rfl
@[simp] theorem State.setPay_cursor (s : State) (m : Memory) : (s.setPay m).cursor = s.cursor := rfl
@[simp] theorem State.setPay_x (s : State) (m : Memory) : (s.setPay m).x = s.x := rfl
@[simp] theorem State.setPay_y (s : State) (m : Memory) : (s.setPay m).y = s.y := rfl
@[simp] theorem State.setPay_ch (s : State) (m : Memory) : (s.setPay m).ch = s.ch := rfl
@[simp] theorem State.setPay_acc (s : State) (m : Memory) : (s.setPay m).acc = s.acc := rfl
@[simp] theorem State.setPay_img (s : State) (m : Memory) : (s.setPay m).img = s.img := rfl
@[simp] theorem State.setPay_pay (s : State) (m : Memory) : (s.setPay m).pay = m := rfl
@[simp] theorem State.setPay_params (s : State) (m : Memory) : (s.setPay m).params = s.params := rfl
@[simp] theorem State.setPay_host (s : State) (m : Memory) : (s.setPay m).host = s.host := rfl
@[simp] theorem State.setPay_seen (s : State) (m : Memory) : (s.setPay m).seen = s.seen := rfl
@[simp] theorem State.setPay_draws (s : State) (m : Memory) : (s.setPay m).draws = s.draws := rfl

/-! ### `setHost` -/

@[simp] theorem State.setHost_status (s : State) (h : List HostAction) : (s.setHost h).status = s.status := rfl
@[simp] theorem State.setHost_phase (s : State) (h : List HostAction) : (s.setHost h).phase = s.phase := rfl
@[simp] theorem State.setHost_op (s : State) (h : List HostAction) : (s.setHost h).op = s.op := rfl
@[simp] theorem State.setHost_env (s : State) (h : List HostAction) : (s.setHost h).env = s.env := rfl
@[simp] theorem State.setHost_w (s : State) (h : List HostAction) : (s.setHost h).w = s.w := rfl
@[simp] theorem State.setHost_h (s : State) (h : List HostAction) : (s.setHost h).h = s.h := rfl
@[simp] theorem State.setHost_b (s : State) (h : List HostAction) : (s.setHost h).b = s.b := rfl
@[simp] theorem State.setHost_plen (s : State) (h : List HostAction) : (s.setHost h).plen = s.plen := rfl
@[simp] theorem State.setHost_len (s : State) (h : List HostAction) : (s.setHost h).len = s.len := rfl
@[simp] theorem State.setHost_cursor (s : State) (h : List HostAction) : (s.setHost h).cursor = s.cursor := rfl
@[simp] theorem State.setHost_x (s : State) (h : List HostAction) : (s.setHost h).x = s.x := rfl
@[simp] theorem State.setHost_y (s : State) (h : List HostAction) : (s.setHost h).y = s.y := rfl
@[simp] theorem State.setHost_ch (s : State) (h : List HostAction) : (s.setHost h).ch = s.ch := rfl
@[simp] theorem State.setHost_acc (s : State) (h : List HostAction) : (s.setHost h).acc = s.acc := rfl
@[simp] theorem State.setHost_img (s : State) (h : List HostAction) : (s.setHost h).img = s.img := rfl
@[simp] theorem State.setHost_pay (s : State) (h : List HostAction) : (s.setHost h).pay = s.pay := rfl
@[simp] theorem State.setHost_params (s : State) (h : List HostAction) : (s.setHost h).params = s.params := rfl
@[simp] theorem State.setHost_host (s : State) (h : List HostAction) : (s.setHost h).host = h := rfl
@[simp] theorem State.setHost_seen (s : State) (h : List HostAction) : (s.setHost h).seen = s.seen := rfl
@[simp] theorem State.setHost_draws (s : State) (h : List HostAction) : (s.setHost h).draws = s.draws := rfl

/-! ### `see` -/

@[simp] theorem State.see_status (s : State) (o : HostSeen) : (s.see o).status = s.status := rfl
@[simp] theorem State.see_phase (s : State) (o : HostSeen) : (s.see o).phase = s.phase := rfl
@[simp] theorem State.see_op (s : State) (o : HostSeen) : (s.see o).op = s.op := rfl
@[simp] theorem State.see_env (s : State) (o : HostSeen) : (s.see o).env = s.env := rfl
@[simp] theorem State.see_w (s : State) (o : HostSeen) : (s.see o).w = s.w := rfl
@[simp] theorem State.see_h (s : State) (o : HostSeen) : (s.see o).h = s.h := rfl
@[simp] theorem State.see_b (s : State) (o : HostSeen) : (s.see o).b = s.b := rfl
@[simp] theorem State.see_plen (s : State) (o : HostSeen) : (s.see o).plen = s.plen := rfl
@[simp] theorem State.see_len (s : State) (o : HostSeen) : (s.see o).len = s.len := rfl
@[simp] theorem State.see_cursor (s : State) (o : HostSeen) : (s.see o).cursor = s.cursor := rfl
@[simp] theorem State.see_x (s : State) (o : HostSeen) : (s.see o).x = s.x := rfl
@[simp] theorem State.see_y (s : State) (o : HostSeen) : (s.see o).y = s.y := rfl
@[simp] theorem State.see_ch (s : State) (o : HostSeen) : (s.see o).ch = s.ch := rfl
@[simp] theorem State.see_acc (s : State) (o : HostSeen) : (s.see o).acc = s.acc := rfl
@[simp] theorem State.see_img (s : State) (o : HostSeen) : (s.see o).img = s.img := rfl
@[simp] theorem State.see_pay (s : State) (o : HostSeen) : (s.see o).pay = s.pay := rfl
@[simp] theorem State.see_params (s : State) (o : HostSeen) : (s.see o).params = s.params := rfl
@[simp] theorem State.see_host (s : State) (o : HostSeen) : (s.see o).host = s.host := rfl
@[simp] theorem State.see_seen (s : State) (o : HostSeen) : (s.see o).seen = s.seen ++ [o] := rfl
@[simp] theorem State.see_draws (s : State) (o : HostSeen) : (s.see o).draws = s.draws := rfl

/-! ### `draw` -/

@[simp] theorem State.draw_status (s : State) (n : Nat) : (s.draw n).status = s.status := rfl
@[simp] theorem State.draw_phase (s : State) (n : Nat) : (s.draw n).phase = s.phase := rfl
@[simp] theorem State.draw_op (s : State) (n : Nat) : (s.draw n).op = s.op := rfl
@[simp] theorem State.draw_env (s : State) (n : Nat) : (s.draw n).env = s.env := rfl
@[simp] theorem State.draw_w (s : State) (n : Nat) : (s.draw n).w = s.w := rfl
@[simp] theorem State.draw_h (s : State) (n : Nat) : (s.draw n).h = s.h := rfl
@[simp] theorem State.draw_b (s : State) (n : Nat) : (s.draw n).b = s.b := rfl
@[simp] theorem State.draw_plen (s : State) (n : Nat) : (s.draw n).plen = s.plen := rfl
@[simp] theorem State.draw_len (s : State) (n : Nat) : (s.draw n).len = s.len := rfl
@[simp] theorem State.draw_cursor (s : State) (n : Nat) : (s.draw n).cursor = s.cursor := rfl
@[simp] theorem State.draw_x (s : State) (n : Nat) : (s.draw n).x = s.x := rfl
@[simp] theorem State.draw_y (s : State) (n : Nat) : (s.draw n).y = s.y := rfl
@[simp] theorem State.draw_ch (s : State) (n : Nat) : (s.draw n).ch = s.ch := rfl
@[simp] theorem State.draw_acc (s : State) (n : Nat) : (s.draw n).acc = s.acc := rfl
@[simp] theorem State.draw_img (s : State) (n : Nat) : (s.draw n).img = s.img := rfl
@[simp] theorem State.draw_pay (s : State) (n : Nat) : (s.draw n).pay = s.pay := rfl
@[simp] theorem State.draw_params (s : State) (n : Nat) : (s.draw n).params = s.params := rfl
@[simp] theorem State.draw_host (s : State) (n : Nat) : (s.draw n).host = s.host := rfl
@[simp] theorem State.draw_seen (s : State) (n : Nat) : (s.draw n).seen = s.seen := rfl
@[simp] theorem State.draw_draws (s : State) (n : Nat) : (s.draw n).draws = s.draws + n := rfl

/-! ### Derived readings -/

@[simp] theorem State.finish_imgOk (s : State) (k : ResultKind) : (s.finish k).imgOk = s.imgOk := rfl
@[simp] theorem State.finish_payOk (s : State) (k : ResultKind) : (s.finish k).payOk = s.payOk := rfl
@[simp] theorem State.finish_capacityBits (s : State) (k : ResultKind) : (s.finish k).capacityBits = s.capacityBits := rfl
@[simp] theorem State.setOp_imgOk (s : State) (o : Opcode) : (s.setOp o).imgOk = s.imgOk := rfl
@[simp] theorem State.setOp_payOk (s : State) (o : Opcode) : (s.setOp o).payOk = s.payOk := rfl
@[simp] theorem State.setOp_isBusy (s : State) (o : Opcode) : (s.setOp o).isBusy = s.isBusy := rfl
@[simp] theorem State.setOp_capacityBits (s : State) (o : Opcode) : (s.setOp o).capacityBits = s.capacityBits := rfl
@[simp] theorem State.accept_imgOk (s : State) (l : BitVec 32) : (s.accept l).imgOk = s.imgOk := rfl
@[simp] theorem State.accept_payOk (s : State) (l : BitVec 32) : (s.accept l).payOk = s.payOk := rfl
@[simp] theorem State.accept_capacityBits (s : State) (l : BitVec 32) : (s.accept l).capacityBits = s.capacityBits := rfl
@[simp] theorem State.setCursor_imgOk (s : State) (n : Nat) : (s.setCursor n).imgOk = s.imgOk := rfl
@[simp] theorem State.setCursor_payOk (s : State) (n : Nat) : (s.setCursor n).payOk = s.payOk := rfl
@[simp] theorem State.setCursor_isBusy (s : State) (n : Nat) : (s.setCursor n).isBusy = s.isBusy := rfl
@[simp] theorem State.setCursor_capacityBits (s : State) (n : Nat) : (s.setCursor n).capacityBits = s.capacityBits := rfl
@[simp] theorem State.setPhase_imgOk (s : State) (p : Phase) : (s.setPhase p).imgOk = s.imgOk := rfl
@[simp] theorem State.setPhase_payOk (s : State) (p : Phase) : (s.setPhase p).payOk = s.payOk := rfl
@[simp] theorem State.setPhase_capacityBits (s : State) (p : Phase) : (s.setPhase p).capacityBits = s.capacityBits := rfl
@[simp] theorem State.setLen_imgOk (s : State) (l : BitVec 32) : (s.setLen l).imgOk = s.imgOk := rfl
@[simp] theorem State.setLen_payOk (s : State) (l : BitVec 32) : (s.setLen l).payOk = s.payOk := rfl
@[simp] theorem State.setLen_isBusy (s : State) (l : BitVec 32) : (s.setLen l).isBusy = s.isBusy := rfl
@[simp] theorem State.setLen_capacityBits (s : State) (l : BitVec 32) : (s.setLen l).capacityBits = s.capacityBits := rfl
@[simp] theorem State.setAcc_imgOk (s : State) (v : BitVec 8) : (s.setAcc v).imgOk = s.imgOk := rfl
@[simp] theorem State.setAcc_payOk (s : State) (v : BitVec 8) : (s.setAcc v).payOk = s.payOk := rfl
@[simp] theorem State.setAcc_isBusy (s : State) (v : BitVec 8) : (s.setAcc v).isBusy = s.isBusy := rfl
@[simp] theorem State.setAcc_capacityBits (s : State) (v : BitVec 8) : (s.setAcc v).capacityBits = s.capacityBits := rfl
@[simp] theorem State.setTriple_imgOk (s : State) (x y c : Nat) : (s.setTriple x y c).imgOk = s.imgOk := rfl
@[simp] theorem State.setTriple_payOk (s : State) (x y c : Nat) : (s.setTriple x y c).payOk = s.payOk := rfl
@[simp] theorem State.setTriple_isBusy (s : State) (x y c : Nat) : (s.setTriple x y c).isBusy = s.isBusy := rfl
@[simp] theorem State.setTriple_capacityBits (s : State) (x y c : Nat) : (s.setTriple x y c).capacityBits = s.capacityBits := rfl
@[simp] theorem State.setImg_imgOk (s : State) (m : Memory) : (s.setImg m).imgOk = s.imgOk := rfl
@[simp] theorem State.setImg_payOk (s : State) (m : Memory) : (s.setImg m).payOk = s.payOk := rfl
@[simp] theorem State.setImg_isBusy (s : State) (m : Memory) : (s.setImg m).isBusy = s.isBusy := rfl
@[simp] theorem State.setImg_capacityBits (s : State) (m : Memory) : (s.setImg m).capacityBits = s.capacityBits := rfl
@[simp] theorem State.setPay_imgOk (s : State) (m : Memory) : (s.setPay m).imgOk = s.imgOk := rfl
@[simp] theorem State.setPay_payOk (s : State) (m : Memory) : (s.setPay m).payOk = s.payOk := rfl
@[simp] theorem State.setPay_isBusy (s : State) (m : Memory) : (s.setPay m).isBusy = s.isBusy := rfl
@[simp] theorem State.setPay_capacityBits (s : State) (m : Memory) : (s.setPay m).capacityBits = s.capacityBits := rfl
@[simp] theorem State.setHost_imgOk (s : State) (h : List HostAction) : (s.setHost h).imgOk = s.imgOk := rfl
@[simp] theorem State.setHost_payOk (s : State) (h : List HostAction) : (s.setHost h).payOk = s.payOk := rfl
@[simp] theorem State.setHost_isBusy (s : State) (h : List HostAction) : (s.setHost h).isBusy = s.isBusy := rfl
@[simp] theorem State.setHost_capacityBits (s : State) (h : List HostAction) : (s.setHost h).capacityBits = s.capacityBits := rfl
@[simp] theorem State.see_imgOk (s : State) (o : HostSeen) : (s.see o).imgOk = s.imgOk := rfl
@[simp] theorem State.see_payOk (s : State) (o : HostSeen) : (s.see o).payOk = s.payOk := rfl
@[simp] theorem State.see_isBusy (s : State) (o : HostSeen) : (s.see o).isBusy = s.isBusy := rfl
@[simp] theorem State.see_capacityBits (s : State) (o : HostSeen) : (s.see o).capacityBits = s.capacityBits := rfl
@[simp] theorem State.draw_imgOk (s : State) (n : Nat) : (s.draw n).imgOk = s.imgOk := rfl
@[simp] theorem State.draw_payOk (s : State) (n : Nat) : (s.draw n).payOk = s.payOk := rfl
@[simp] theorem State.draw_isBusy (s : State) (n : Nat) : (s.draw n).isBusy = s.isBusy := rfl
@[simp] theorem State.draw_capacityBits (s : State) (n : Nat) : (s.draw n).capacityBits = s.capacityBits := rfl

@[simp] theorem State.finish_isBusy (s : State) (k : ResultKind) : (s.finish k).isBusy = false := rfl

end Sys2Proof.Machine
end

