-- ==== Sys2Proof/Laws/Memory.lean ====
section
/-! SUPPORT. Laws of the byte memories: the canonical form is kept, a read after a write, equality of canonical
memories by their bytes. -/

namespace Sys2Proof.Machine

/-! ### The canonical form -/

theorem Memory.wfFrom_mono {m : Memory} {lo lo' : Nat} (h : lo' ≤ lo) (hm : m.wfFrom lo = true) :
    m.wfFrom lo' = true := by
  cases m with
  | nil => rfl
  | cons e m =>
    simp only [Memory.wfFrom, Bool.and_eq_true, decide_eq_true_eq] at hm ⊢
    exact ⟨⟨h.trans hm.1.1, hm.1.2⟩, hm.2⟩

/-- Nothing is listed below the bound of the form, so the bytes there are blank. -/
theorem Memory.read_below {m : Memory} {lo a : Nat} (hm : m.wfFrom lo = true) (ha : a < lo) :
    m.read a = blankByte := by
  induction m generalizing lo with
  | nil => rfl
  | cons e m ih =>
    simp only [Memory.wfFrom, Bool.and_eq_true, decide_eq_true_eq] at hm
    have hne : e.1 ≠ a := by omega
    simp only [Memory.read, hne, if_false]
    exact ih hm.2 (by omega)

theorem Memory.wfFrom_write {m : Memory} {lo a : Nat} (v : Byte) (hm : m.wfFrom lo = true) (ha : lo ≤ a) :
    (m.write a v).wfFrom lo = true := by
  induction m generalizing lo with
  | nil =>
    by_cases hv : v = blankByte
    · simp [Memory.write, hv, Memory.wfFrom]
    · simp [Memory.write, hv, Memory.wfFrom, ha]
  | cons e m ih =>
    obtain ⟨k, u⟩ := e
    have hm' := hm
    simp only [Memory.wfFrom, Bool.and_eq_true, decide_eq_true_eq, bne_iff_ne] at hm'
    obtain ⟨⟨hk, hu⟩, ht⟩ := hm'
    by_cases hlt : a < k
    · by_cases hv : v = blankByte
      · simpa [Memory.write, hlt, hv] using hm
      · simp [Memory.write, hlt, hv, Memory.wfFrom, ha, hu, ht, Nat.succ_le_of_lt hlt]
    · by_cases heq : a = k
      · by_cases hv : v = blankByte
        · simpa [Memory.write, heq, hv] using Memory.wfFrom_mono (by omega) ht
        · simp [Memory.write, heq, hv, Memory.wfFrom, hk, ht]
      · simp [Memory.write, hlt, heq, Memory.wfFrom, hk, hu, ih ht (by omega)]

/-- A store keeps the canonical form. -/
@[simp] theorem Memory.wf_write {m : Memory} (a : Nat) (v : Byte) (hm : m.wf = true) : (m.write a v).wf = true :=
  Memory.wfFrom_write v hm (Nat.zero_le a)

/-- A store of several bytes keeps the canonical form. -/
@[simp] theorem Memory.wf_writeBytes {m : Memory} (a : Nat) (vs : List Byte) (hm : m.wf = true) :
    (m.writeBytes a vs).wf = true := by
  induction vs generalizing m a with
  | nil => exact hm
  | cons v vs ih => exact ih (a + 1) (Memory.wf_write a v hm)

@[simp] theorem Memory.wf_nil : Memory.wf [] = true := rfl

@[simp] theorem Memory.wf_ofCells (size : Option Nat) (l : List Host.Cell) : (Memory.ofCells size l).wf = true := by
  induction l with
  | nil => rfl
  | cons c l ih =>
    obtain ⟨a, v⟩ := c
    simp only [Memory.ofCells]
    split
    · exact Memory.wf_write a v ih
    · exact ih

/-! ### Reading back -/

theorem Memory.read_writeFrom {m : Memory} {lo a : Nat} (v : Byte) (a' : Nat) (hm : m.wfFrom lo = true) :
    (m.write a v).read a' = if a' = a then v else m.read a' := by
  induction m generalizing lo with
  | nil =>
    by_cases hv : v = blankByte
    · simp [Memory.write, hv, Memory.read]
    · simp [Memory.write, hv, Memory.read, eq_comm]
  | cons e m ih =>
    obtain ⟨k, u⟩ := e
    simp only [Memory.wfFrom, Bool.and_eq_true, decide_eq_true_eq, bne_iff_ne] at hm
    obtain ⟨⟨hk, hu⟩, ht⟩ := hm
    by_cases hlt : a < k
    · by_cases hv : v = blankByte
      · rw [Memory.write, if_pos hlt, if_pos hv]
        by_cases h : a' = a
        · have hka : k ≠ a' := by omega
          rw [if_pos h, hv, Memory.read, if_neg hka]
          exact Memory.read_below ht (by omega)
        · rw [if_neg h]
      · rw [Memory.write, if_pos hlt, if_neg hv]
        simp only [Memory.read, eq_comm]
    · by_cases heq : a = k
      · subst heq
        by_cases hv : v = blankByte
        · rw [Memory.write, if_neg hlt, if_pos rfl, if_pos hv]
          by_cases h : a' = a
          · rw [if_pos h, hv]
            exact Memory.read_below ht (by omega)
          · rw [if_neg h, Memory.read, if_neg (Ne.symm h)]
        · rw [Memory.write, if_neg hlt, if_pos rfl, if_neg hv]
          by_cases h : a' = a
          · simp [Memory.read, h]
          · simp [Memory.read, h, Ne.symm h]
      · rw [Memory.write, if_neg hlt, if_neg heq]
        by_cases h : k = a'
        · have : a' ≠ a := by omega
          simp [Memory.read, h, this]
        · simp only [Memory.read, h, if_false]
          exact ih ht

/-- A read after a store: the stored byte at its address, every other byte as before. -/
theorem Memory.read_write {m : Memory} (a : Nat) (v : Byte) (a' : Nat) (hm : m.wf = true) :
    (m.write a v).read a' = if a' = a then v else m.read a' :=
  Memory.read_writeFrom v a' hm

/-- A read after a store of several bytes. -/
theorem Memory.read_writeBytes {m : Memory} (a : Nat) (vs : List Byte) (a' : Nat) (hm : m.wf = true) :
    (m.writeBytes a vs).read a' =
      if h : a ≤ a' ∧ a' - a < vs.length then vs[a' - a]'h.2 else m.read a' := by
  induction vs generalizing m a with
  | nil => simp [Memory.writeBytes]
  | cons v vs ih =>
    rw [Memory.writeBytes, ih (a + 1) (Memory.wf_write a v hm), Memory.read_write a v a' hm]
    rcases Nat.lt_trichotomy a' a with h | h | h
    · rw [dif_neg (by omega), dif_neg (by omega), if_neg (by omega)]
    · subst h
      simp
    · obtain ⟨d, rfl⟩ : ∃ d, a' = a + 1 + d := ⟨a' - (a + 1), by omega⟩
      have hne : a + 1 + d ≠ a := by omega
      have h1 : a + 1 + d - (a + 1) = d := by omega
      have h2 : a + 1 + d - a = d + 1 := by omega
      simp only [h1, h2, List.length_cons, List.getElem_cons_succ, hne, if_false]
      by_cases hd : d < vs.length
      · rw [dif_pos ⟨by omega, hd⟩, dif_pos ⟨by omega, by omega⟩]
      · rw [dif_neg (by omega), dif_neg (by omega)]

@[simp] theorem Memory.length_readBytes (m : Memory) (a n : Nat) : (m.readBytes a n).length = n := by
  simp [Memory.readBytes]

theorem Memory.getElem_readBytes (m : Memory) (a n j : Nat) (h : j < (m.readBytes a n).length) :
    (m.readBytes a n)[j] = m.read (a + j) := by
  simp [Memory.readBytes]

/-! ### Equality -/

theorem Memory.ext_readFrom {m m' : Memory} {lo : Nat} (hm : m.wfFrom lo = true) (hm' : m'.wfFrom lo = true)
    (h : ∀ a, m.read a = m'.read a) : m = m' := by
  induction m generalizing m' lo with
  | nil =>
    cases m' with
    | nil => rfl
    | cons e m' =>
      simp only [Memory.wfFrom, Bool.and_eq_true, decide_eq_true_eq, bne_iff_ne] at hm'
      have := h e.1
      simp only [Memory.read, if_true] at this
      exact absurd this.symm hm'.1.2
  | cons e m ih =>
    obtain ⟨k, u⟩ := e
    simp only [Memory.wfFrom, Bool.and_eq_true, decide_eq_true_eq, bne_iff_ne] at hm
    obtain ⟨⟨hk, hu⟩, ht⟩ := hm
    cases m' with
    | nil =>
      have := h k
      simp only [Memory.read, if_true] at this
      exact absurd this hu
    | cons e' m' =>
      obtain ⟨k', u'⟩ := e'
      simp only [Memory.wfFrom, Bool.and_eq_true, decide_eq_true_eq, bne_iff_ne] at hm'
      obtain ⟨⟨hk', hu'⟩, ht'⟩ := hm'
      have hkk : k = k' := by
        rcases Nat.lt_trichotomy k k' with hl | hl | hl
        · have hne : k' ≠ k := by omega
          have := h k
          simp only [Memory.read, if_true, hne, if_false, Memory.read_below ht' (by omega : k < k' + 1)] at this
          exact absurd this hu
        · exact hl
        · have hne : k ≠ k' := by omega
          have := h k'
          simp only [Memory.read, if_true, hne, if_false, Memory.read_below ht (by omega : k' < k + 1)] at this
          exact absurd this.symm hu'
      subst hkk
      have huu : u = u' := by simpa [Memory.read] using h k
      subst huu
      have hrest : m = m' := by
        refine ih ht ht' fun a => ?_
        by_cases hak : a < k + 1
        · rw [Memory.read_below ht hak, Memory.read_below ht' hak]
        · have hne : k ≠ a := by omega
          simpa [Memory.read, hne] using h a
      rw [hrest]

/-- Equal memories are equal data: canonical memories that read alike are the same list. -/
theorem Memory.ext_read {m m' : Memory} (hm : m.wf = true) (hm' : m'.wf = true)
    (h : ∀ a, m.read a = m'.read a) : m = m' :=
  Memory.ext_readFrom hm hm' h

/-! ### Sizes -/

/-- Bytes inside a held range are held. -/
theorem fits_of_fits {size : Option Nat} {a n b k : Nat} (h : fits size a n = true) (hk : b + k ≤ a + n)
    (hn : n ≠ 0 ∨ a = 0) : fits size b k = true := by
  cases size with
  | none => rfl
  | some m =>
    simp only [fits, Bool.or_eq_true, decide_eq_true_eq] at h ⊢
    rcases h with h | h
    · left
      omega
    · right
      omega

end Sys2Proof.Machine
end

