-- ==== Sys2Proof/Laws/Address.lean ====
section
/-! SUPPORT. Laws of the address function, the linear address and the two accesses of a frame bit: for each one
equation that says everything it can do. -/

namespace Sys2Proof.Machine

/-! ### The address function -/

theorem addr_zero (b : Nat) : addr b 0 = none := rfl

theorem addr_pos {wd : Nat} (b : Nat) (h : 0 < wd) :
    addr b wd = some { x := b / 3 % wd, y := b / 3 / wd, c := b % 3 } := by
  cases wd with
  | zero => omega
  | succ n => rfl

/-- The row of a frame bit lies in the image exactly when the bit is below the capacity. -/
theorem row_lt_iff {b w h : Nat} (hw : 0 < w) : b / 3 / w < h ↔ b < w * h * 3 := by
  rw [Nat.div_lt_iff_lt_mul hw, Nat.div_lt_iff_lt_mul (by omega), Nat.mul_comm h w]

theorem width_pos_of_lt {b w h : Nat} (hb : b < w * h * 3) : 0 < w := by
  rcases Nat.eq_zero_or_pos w with rfl | hw
  · simp at hb
  · exact hw

/-- 20_memory.md R63. -/
theorem lin_addr (s : State) (b : Nat) :
    lin s { x := b / 3 % s.w.toNat, y := b / 3 / s.w.toNat, c := b % 3 } = cellAddress s.params.nch b := by
  have := Nat.div_add_mod (b / 3) s.w.toNat
  rw [Nat.mul_comm] at this
  simp only [lin, cellAddress, this]

theorem lin_pixel (s : State) (b : Nat) :
    lin s { x := b / 3 % s.w.toNat, y := b / 3 / s.w.toNat, c := 0 } = b / 3 * s.params.nch := by
  have := Nat.div_add_mod (b / 3) s.w.toNat
  rw [Nat.mul_comm] at this
  simp only [lin, this, Nat.add_zero]

theorem insideImage_addr {s : State} {b : Nat} (hw : 0 < s.w.toNat) :
    insideImage s { x := b / 3 % s.w.toNat, y := b / 3 / s.w.toNat, c := b % 3 } =
      decide (b < s.w.toNat * s.h.toNat * 3) := by
  have h1 : b / 3 % s.w.toNat < s.w.toNat := Nat.mod_lt _ hw
  have h2 : b % 3 < usedChannels := Nat.mod_lt _ (by decide)
  simp only [insideImage, h1, h2, row_lt_iff hw, decide_true, Bool.true_and, Bool.and_true]

/-- Distinct frame bits have distinct cells, whatever `NCH >= 3`. -/
theorem cellAddress_injective {p : Params} {i j : Nat} (h : cellAddress p.nch i = cellAddress p.nch j) : i = j := by
  have hi : i % 3 < p.nch := by simp only [Params.nch]; omega
  have hj : j % 3 < p.nch := by simp only [Params.nch]; omega
  have hn : 0 < p.nch := by omega
  have key : ∀ k, k % 3 < p.nch → (cellAddress p.nch k) / p.nch = k / 3 ∧ (cellAddress p.nch k) % p.nch = k % 3 := by
    intro k hk
    constructor
    · rw [cellAddress, Nat.add_comm, Nat.add_mul_div_right _ _ hn, Nat.div_eq_of_lt hk, Nat.zero_add]
    · rw [cellAddress, Nat.add_comm, Nat.add_mul_mod_self_right, Nat.mod_eq_of_lt hk]
  have h1 := (key i hi).1
  have h2 := (key i hi).2
  rw [h, (key j hj).1] at h1
  rw [h, (key j hj).2] at h2
  omega

/-- The pixel of a frame bit below the capacity lies inside `W * H * NCH`. -/
theorem pixel_inside {b w h n : Nat} (hb : b < w * h * 3) : b / 3 * n + n ≤ w * h * n := by
  have : b / 3 + 1 ≤ w * h := by omega
  calc b / 3 * n + n = (b / 3 + 1) * n := by ring
    _ ≤ w * h * n := Nat.mul_le_mul_right n this

/-! ### Bit 0 of a byte -/

/-- `SetLsb` on one byte (41_encoder.md R151): bit 0 is the frame bit, bits 7 to 1 are kept. -/
theorem withLsb_getLsbD (old : Byte) (bit : Bool) (i : Nat) :
    (withLsb old bit).getLsbD i = if i = 0 then bit else old.getLsbD i := by
  have h : ∀ (o : Byte) (c : Bool) (j : Fin 8),
      (withLsb o c).getLsbD j = if j.val = 0 then c else o.getLsbD j := by decide +revert
  by_cases hi : i < 8
  · exact h old bit ⟨i, hi⟩
  · have hne : i ≠ 0 := by omega
    simp only [hne, if_false]
    rw [BitVec.getLsbD_of_ge _ _ (by omega), BitVec.getLsbD_of_ge _ _ (by omega)]

theorem withLsb_eq (old : Byte) (bit : Bool) :
    withLsb old bit = (old &&& 0xFE#8) ||| (if bit then 1#8 else 0#8) := by
  cases bit <;> rfl

@[simp] theorem bitOf_withLsb (old : Byte) (bit : Bool) : bitOf (withLsb old bit) 0 = bit := by
  rw [bitOf, withLsb_getLsbD, if_pos rfl]

/-! ### The access of a frame bit -/

/-- Everything `putFrameBit` can do on a canonical image: one byte of `IMG` gets the bit in its bit 0, or a stop
by name. -/
theorem putFrameBit_eq {s : State} (b : Nat) (bit : Bool) (hm : s.img.wf = true) :
    putFrameBit b bit s =
      if s.w.toNat = 0 then .refused .addrWidthZero
      else if b < s.w.toNat * s.h.toNat * 3 then
        if fits s.params.imgBytes (b / 3 * s.params.nch) s.params.nch = true then
          .next (s.setImg (s.img.write (cellAddress s.params.nch b)
            (withLsb (s.img.read (cellAddress s.params.nch b)) bit)))
        else .fault (.imgOutOfRange (b / 3 * s.params.nch))
      else .refused .outsideImage := by
  by_cases hw : s.w.toNat = 0
  · simp [putFrameBit, hw, addr_zero]
  have hpos : 0 < s.w.toNat := Nat.pos_of_ne_zero hw
  simp only [putFrameBit, addr_pos b hpos, if_neg hw, setLsb, insideImage_addr hpos, decide_eq_true_eq]
  by_cases hb : b < s.w.toNat * s.h.toNat * 3
  swap
  · simp [hb]
  simp only [hb, if_true, pixRead, pixWrite, lin_pixel, loadImgBytes, storeImgBytes]
  by_cases hf : fits s.params.imgBytes (b / 3 * s.params.nch) s.params.nch = true
  swap
  · simp [hf, andThen]
  simp only [hf, if_true, andThen, List.length_modify, Memory.length_readBytes]
  congr 2
  refine Memory.ext_read (Memory.wf_writeBytes _ _ hm) (Memory.wf_write _ _ hm) fun a => ?_
  rw [Memory.read_writeBytes _ _ _ hm, Memory.read_write _ _ _ hm]
  have hc : b % 3 < s.params.nch := by simp only [Params.nch]; omega
  have hcell : cellAddress s.params.nch b = b / 3 * s.params.nch + b % 3 := rfl
  generalize cellAddress s.params.nch b = cell at hcell ⊢
  simp only [List.length_modify, Memory.length_readBytes]
  by_cases ha : b / 3 * s.params.nch ≤ a ∧ a - b / 3 * s.params.nch < s.params.nch
  · rw [dif_pos ha, List.getElem_modify, Memory.getElem_readBytes, Nat.add_sub_of_le ha.1]
    by_cases hab : a = cell
    · rw [if_pos (by omega), if_pos hab, hab]
    · rw [if_neg (by omega), if_neg hab]
  · rw [dif_neg ha, if_neg (by omega)]

/-- Everything `getFrameBit` can do. -/
theorem getFrameBit_eq (b : Nat) (s : State) :
    getFrameBit b s =
      if s.w.toNat = 0 then .refused .addrWidthZero
      else if b < s.w.toNat * s.h.toNat * 3 then
        if fits s.params.imgBytes (cellAddress s.params.nch b) 1 = true then .next (s.lsbAt b)
        else .fault (.imgOutOfRange (cellAddress s.params.nch b))
      else .refused .outsideImage := by
  by_cases hw : s.w.toNat = 0
  · simp [getFrameBit, hw, addr_zero]
  have hpos : 0 < s.w.toNat := Nat.pos_of_ne_zero hw
  simp only [getFrameBit, addr_pos b hpos, if_neg hw, getLsb, insideImage_addr hpos, decide_eq_true_eq, lin_addr,
    loadImg]
  by_cases hb : b < s.w.toNat * s.h.toNat * 3
  swap
  · simp [hb]
  by_cases hf : fits s.params.imgBytes (cellAddress s.params.nch b) 1 = true
  · simp [hb, hf, andThen, State.lsbAt]
  · simp [hb, hf, andThen]

theorem imgHeld_pixel {s : State} {b : Nat} (hh : s.imgHeld) (hb : b < s.w.toNat * s.h.toNat * 3) :
    fits s.params.imgBytes (b / 3 * s.params.nch) s.params.nch = true := by
  have h := pixel_inside (n := s.params.nch) hb
  exact fits_of_fits hh (by omega) (Or.inr rfl)

theorem imgHeld_cell {s : State} {b : Nat} (hh : s.imgHeld) (hb : b < s.w.toNat * s.h.toNat * 3) :
    fits s.params.imgBytes (cellAddress s.params.nch b) 1 = true := by
  have h := pixel_inside (n := s.params.nch) hb
  have hc : b % 3 < s.params.nch := by simp only [Params.nch]; omega
  refine fits_of_fits hh ?_ (Or.inr rfl)
  simp only [cellAddress]
  omega

/-- Under the size duty a frame bit below the capacity is written. -/
theorem putFrameBit_inside {s : State} {b : Nat} (bit : Bool) (hm : s.img.wf = true) (hh : s.imgHeld)
    (hb : b < s.w.toNat * s.h.toNat * 3) :
    putFrameBit b bit s = .next (s.setImg (s.img.write (cellAddress s.params.nch b)
      (withLsb (s.img.read (cellAddress s.params.nch b)) bit))) := by
  have hw := width_pos_of_lt hb
  rw [putFrameBit_eq b bit hm, if_neg (by omega), if_pos hb, if_pos (imgHeld_pixel hh hb)]

/-- Under the size duty a frame bit below the capacity is read. -/
theorem getFrameBit_inside {s : State} {b : Nat} (hh : s.imgHeld) (hb : b < s.w.toNat * s.h.toNat * 3) :
    getFrameBit b s = .next (s.lsbAt b) := by
  have hw := width_pos_of_lt hb
  rw [getFrameBit_eq, if_neg (by omega), if_pos hb, if_pos (imgHeld_cell hh hb)]

/-- A frame bit that is put leaves everything but `IMG` and keeps its canonical form. -/
theorem putFrameBit_next {s s' : State} {b : Nat} {bit : Bool} (hm : s.img.wf = true)
    (h : putFrameBit b bit s = .next s') :
    b < s.w.toNat * s.h.toNat * 3 ∧
      s' = s.setImg (s.img.write (cellAddress s.params.nch b)
        (withLsb (s.img.read (cellAddress s.params.nch b)) bit)) := by
  rw [putFrameBit_eq b bit hm] at h
  split_ifs at h with h1 h2 h3
  exact ⟨h2, by simpa [eq_comm] using h⟩

/-- A frame bit that is read is bit 0 of its cell. -/
theorem getFrameBit_next {s : State} {b : Nat} {bit : Bool} (h : getFrameBit b s = .next bit) :
    b < s.w.toNat * s.h.toNat * 3 ∧ bit = s.lsbAt b := by
  rw [getFrameBit_eq] at h
  split_ifs at h with h1 h2 h3
  exact ⟨h2, by simpa [eq_comm] using h⟩

/-! ### Sequencing inside a step -/

theorem andThen_eq_next {α β : Type} {r : Res α} {k : α → Res β} {t : β} :
    andThen r k = .next t ↔ ∃ a, r = .next a ∧ k a = .next t := by
  cases r <;> simp [andThen]

@[simp] theorem andThen_next {α β : Type} (a : α) (k : α → Res β) : andThen (.next a) k = k a := rfl

@[simp] theorem andThen_fault {α β : Type} (f : Fault) (k : α → Res β) : andThen (.fault f) k = .fault f := rfl

@[simp] theorem andThen_refused {α β : Type} (f : Refusal) (k : α → Res β) :
    andThen (.refused f) k = .refused f := rfl

/-- Without any premise on `IMG`: a frame bit that is put writes nothing but `IMG`. -/
theorem putFrameBit_frame {s s' : State} {b : Nat} {bit : Bool} (h : putFrameBit b bit s = .next s') :
    ∃ m, s' = s.setImg m := by
  simp only [putFrameBit] at h
  cases ha : addr b s.w.toNat with
  | none => simp [ha] at h
  | some t =>
    simp only [ha, setLsb] at h
    split_ifs at h
    obtain ⟨p, -, h2⟩ := andThen_eq_next.1 h
    simp only [pixWrite, storeImgBytes] at h2
    split_ifs at h2
    exact ⟨_, (Host.Outcome.next.inj h2).symm⟩

end Sys2Proof.Machine
end

