-- ==== Sys2Proof/Laws/PerInstr.lean ====
section
/-! SUPPORT. Statements made for every command of the opcode map, one lemma per constructor. -/

namespace Sys2Proof.Laws.EncodeDecode

/-- A command is well formed, its word decodes to it, and no other word does (30_encoding.md R91, R94). -/
def Statement (i : Instr) : Prop :=
  i.wf = true ∧ decode (encode i) = .command i ∧ ∀ w : Opcode, decode w = .command i → w = encode i

theorem addr : Statement .addr := by unfold Statement; decide

theorem encode : Statement .encode := by unfold Statement; decide

theorem decode : Statement .decode := by unfold Statement; decide

end Sys2Proof.Laws.EncodeDecode
end

