-- ==== Sys2Proof/Laws/Run.lean ====
section
/-! SUPPORT. Runs of the machine cut into steps, and the sums of bits that `gather` builds. -/

namespace Sys2Proof.Machine

/-! ### Runs -/

theorem run_zero (s : State) : Host.Core.run core 0 s = .next s := rfl

theorem run_succ {s t : State} (n : Nat) (h : step s = .next t) :
    Host.Core.run core (n + 1) s = Host.Core.run core n t := by
  have h' : core.step s = .next t := h
  simp only [Host.Core.run, h']

/-- A run of `m + n` steps is one of `n` steps from where `m` steps end. -/
theorem run_add {s t : State} (m n : Nat) (h : Host.Core.run core m s = .next t) :
    Host.Core.run core (m + n) s = Host.Core.run core n t := by
  induction m generalizing s with
  | zero =>
    rw [run_zero] at h
    cases h
    rw [Nat.zero_add]
  | succ m ih =>
    rw [Nat.add_right_comm]
    cases hs : core.step s with
    | next u =>
      rw [run_succ _ hs] at h ⊢
      exact ih h
    | fault f => simp only [Host.Core.run, hs] at h; cases h
    | refused f => simp only [Host.Core.run, hs] at h; cases h

theorem run_snoc {s t u : State} (n : Nat) (h : Host.Core.run core n s = .next t) (h' : step t = .next u) :
    Host.Core.run core (n + 1) s = .next u := by
  rw [run_add n 1 h, run_succ 0 h', run_zero]

/-! ### Sums of bits -/

theorem gather_lt (g : Nat → Bool) (n : Nat) : gather g n < 2 ^ n := by
  induction n with
  | zero => simp [gather]
  | succ n ih => simp only [gather]; split_ifs <;> rw [pow_succ] <;> omega

/-- The bits of a number assemble back to it, modulo the number of bits taken. -/
theorem gather_testBit (v n : Nat) : gather (fun i => v.testBit i) n = v % 2 ^ n := by
  induction n with
  | zero => simp [gather, Nat.mod_one]
  | succ n ih =>
    simp only [gather, ih, Nat.mod_pow_succ (x := v) (b := 2) (k := n), ← Nat.toNat_testBit]
    by_cases hb : v.testBit n = true <;> simp [hb]

theorem gather_congr {g g' : Nat → Bool} {n : Nat} (h : ∀ i, i < n → g i = g' i) : gather g n = gather g' n := by
  induction n with
  | zero => rfl
  | succ n ih => simp only [gather, ih fun i hi => h i (by omega), h n (by omega)]

end Sys2Proof.Machine
end

