-- ==== Sys2Proof/Laws/Steps.lean ====
section
/-! SUPPORT. One spec lemma per bit step and per start step: the next state under the host's duties, and, the other
way round, all a bit step can have done when it answers a next state. And one inversion lemma for `step`. -/

namespace Sys2Proof.Machine

/-! ### The next states of the bit steps, as functions of the start state -/

/-- `IMG` after frame bit `b` got the value `bit`. -/
def State.imgWith (s : State) (b : Nat) (bit : Bool) : Memory :=
  s.img.write (cellAddress s.params.nch b) (withLsb (s.img.read (cellAddress s.params.nch b)) bit)

/-- The state after an `ENCODE` prefix step (41_encoder.md R149). -/
def encodePrefixNext (s : State) : State :=
  let s' := (s.setImg (s.imgWith s.cursor.toNat (bitOf s.len s.cursor.toNat))).setCursor (s.cursor.toNat + 1)
  if s.cursor.toNat = 31 then
    if s.len.toNat = 0 then done .ok s' else s'.setPhase .payloadPhase
  else s'

/-- The state after an `ENCODE` payload step (41_encoder.md R150). -/
def encodePayloadNext (s : State) : State :=
  let j := s.cursor.toNat - 32
  let s' := (s.setImg (s.imgWith s.cursor.toNat (bitOf (s.pay.read (j / 8)) (j % 8)))).setCursor
    (s.cursor.toNat + 1)
  if s.cursor.toNat + 1 = frameBitLength s.len.toNat then done .ok s' else s'

/-- The state after a `DECODE` prefix step (42_decoder.md R176). -/
def decodePrefixNext (s : State) : State :=
  let s' := (s.setLen (s.len ||| bitAt 32 (s.lsbAt s.cursor.toNat) s.cursor.toNat)).setCursor (s.cursor.toNat + 1)
  if s.cursor.toNat = 31 then validateLength s' else s'

/-- The state after a `DECODE` payload step (42_decoder.md R179). -/
def decodePayloadNext (s : State) : State :=
  let j := s.cursor.toNat - 32
  let v := s.acc ||| bitAt 8 (s.lsbAt s.cursor.toNat) (j % 8)
  if j % 8 < 7 then decodePayloadAdvance s.cursor.toNat (s.setAcc v)
  else decodePayloadAdvance s.cursor.toNat ((s.setPay (s.pay.write (j / 8) v)).setAcc 0)

/-! ### What the bit steps can do -/

theorem encodePrefixStep_inside {s : State} (hm : s.img.wf = true) (hh : s.imgHeld)
    (hb : s.cursor.toNat < s.w.toNat * s.h.toNat * 3) : encodePrefixStep s = .next (encodePrefixNext s) := by
  simp only [encodePrefixStep, putFrameBit_inside _ hm hh hb, andThen_next, encodePrefixNext, State.imgWith]
  split_ifs <;> rfl

theorem encodePrefixStep_next {s t : State} (hm : s.img.wf = true) (h : encodePrefixStep s = .next t) :
    s.cursor.toNat < s.w.toNat * s.h.toNat * 3 ∧ t = encodePrefixNext s := by
  obtain ⟨s', h1, h2⟩ := andThen_eq_next.1 h
  obtain ⟨hb, rfl⟩ := putFrameBit_next hm h1
  refine ⟨hb, ?_⟩
  simp only [encodePrefixNext, State.imgWith]
  split_ifs at h2 ⊢ <;> simpa [eq_comm] using h2

theorem encodePayloadStep_inside {s : State} (hm : s.img.wf = true) (hh : s.imgHeld)
    (hb : s.cursor.toNat < s.w.toNat * s.h.toNat * 3)
    (hp : fits s.params.payBytes ((s.cursor.toNat - 32) / 8) 1 = true) :
    encodePayloadStep s = .next (encodePayloadNext s) := by
  simp only [encodePayloadStep, loadPay, prefixBits, hp, if_true, andThen_next, putFrameBit_inside _ hm hh hb,
    encodePayloadNext, State.imgWith]
  split_ifs <;> rfl

theorem encodePayloadStep_next {s t : State} (hm : s.img.wf = true) (h : encodePayloadStep s = .next t) :
    s.cursor.toNat < s.w.toNat * s.h.toNat * 3 ∧
      fits s.params.payBytes ((s.cursor.toNat - 32) / 8) 1 = true ∧ t = encodePayloadNext s := by
  obtain ⟨v, h0, h1⟩ := andThen_eq_next.1 h
  obtain ⟨s', h1, h2⟩ := andThen_eq_next.1 h1
  obtain ⟨hb, rfl⟩ := putFrameBit_next hm h1
  delta prefixBits at h0
  simp only [loadPay] at h0
  split_ifs at h0 with hp
  obtain rfl : s.pay.read ((s.cursor.toNat - 32) / 8) = v := by simpa using h0
  refine ⟨hb, hp, ?_⟩
  simp only [encodePayloadNext, State.imgWith]
  delta prefixBits at h2
  split_ifs at h2 ⊢ <;> simpa [eq_comm] using h2

theorem decodePrefixStep_inside {s : State} (hh : s.imgHeld)
    (hb : s.cursor.toNat < s.w.toNat * s.h.toNat * 3) : decodePrefixStep s = .next (decodePrefixNext s) := by
  simp only [decodePrefixStep, getFrameBit_inside hh hb, andThen_next, decodePrefixNext]
  split_ifs <;> rfl

theorem decodePrefixStep_next {s t : State} (h : decodePrefixStep s = .next t) :
    s.cursor.toNat < s.w.toNat * s.h.toNat * 3 ∧ t = decodePrefixNext s := by
  obtain ⟨bit, h1, h2⟩ := andThen_eq_next.1 h
  obtain ⟨hb, rfl⟩ := getFrameBit_next h1
  refine ⟨hb, ?_⟩
  simp only [decodePrefixNext]
  split_ifs at h2 ⊢ <;> simpa [eq_comm] using h2

theorem decodePayloadStep_inside {s : State} (hh : s.imgHeld)
    (hb : s.cursor.toNat < s.w.toNat * s.h.toNat * 3)
    (hp : fits s.params.payBytes ((s.cursor.toNat - 32) / 8) 1 = true) :
    decodePayloadStep s = .next (decodePayloadNext s) := by
  simp only [decodePayloadStep, getFrameBit_inside hh hb, andThen_next, decodePayloadNext, storePay, prefixBits,
    hp, if_true]
  split_ifs <;> rfl

theorem decodePayloadStep_next {s t : State} (h : decodePayloadStep s = .next t) :
    s.cursor.toNat < s.w.toNat * s.h.toNat * 3 ∧ t = decodePayloadNext s := by
  obtain ⟨bit, h1, h2⟩ := andThen_eq_next.1 h
  obtain ⟨hb, rfl⟩ := getFrameBit_next h1
  refine ⟨hb, ?_⟩
  simp only [decodePayloadNext]
  delta prefixBits at h2
  by_cases hj : (s.cursor.toNat - 32) % 8 < 7
  · rw [if_pos hj] at h2 ⊢
    simpa [eq_comm] using h2
  · rw [if_neg hj] at h2 ⊢
    obtain ⟨s', h3, h4⟩ := andThen_eq_next.1 h2
    simp only [storePay] at h3
    split_ifs at h3
    obtain rfl := Host.Outcome.next.inj h3
    simpa [eq_comm] using h4

/-! ### Start steps -/

theorem whenIdle_idle {s : State} (r : Res State) (h : s.phase = .idle) : whenIdle s r = r := by
  simp [whenIdle, h]

theorem whenIdle_next {s t : State} {r : Res State} (h : whenIdle s r = .next t) : s.phase = .idle ∧ r = .next t := by
  cases hp : s.phase <;> simp [whenIdle, hp] at h
  exact ⟨rfl, h⟩

/-- Everything `ADDR` can do on an idle block. -/
theorem execAddr_idle {s : State} (h : s.phase = .idle) :
    execAddr s =
      if s.w.toNat = 0 then .refused .addrWidthZero
      else .next (((s.setTriple (s.b.toNat / 3 % s.w.toNat) (s.b.toNat / 3 / s.w.toNat) (s.b.toNat % 3)).setOp
        (encode .addr)).finish .ok) := by
  rw [execAddr, whenIdle_idle _ h]
  by_cases hw : s.w.toNat = 0
  · simp [hw, addr_zero]
  · simp [hw, addr_pos s.b.toNat (Nat.pos_of_ne_zero hw), done]

/-- Everything `ENCODE`'s start step can do on an idle block. -/
theorem execEncode_idle {s : State} (h : s.phase = .idle) :
    execEncode s = .next (match encodeCheck s with
      | some k => (s.setOp (encode .encode)).finish k
      | none => (s.setOp (encode .encode)).accept (s.plen.setWidth 32)) := by
  rw [execEncode, whenIdle_idle _ h]
  cases encodeCheck s <;> rfl

/-- Everything `DECODE`'s start step can do on an idle block. -/
theorem execDecode_idle {s : State} (h : s.phase = .idle) :
    execDecode s = .next (match decodeCheck s with
      | some k => (s.setOp (encode .decode)).finish k
      | none => ((s.setOp (encode .decode)).accept 0).setAcc 0) := by
  rw [execDecode, whenIdle_idle _ h]
  cases decodeCheck s <;> rfl

/-- The checks of `ENCODE` all pass exactly when the payload fits (41_encoder.md R142). -/
theorem encodeCheck_none {s : State} :
    encodeCheck s = none ↔ s.imgOk = true ∧ s.payOk = true ∧ s.plen.toNat ≤ 2 ^ 32 - 1 ∧
      32 + 8 * s.plen.toNat ≤ s.w.toNat * s.h.toNat * 3 := by
  simp only [encodeCheck, maxLength, State.capacityBits, frameBitLength, usedChannels, prefixBits]
  split_ifs <;> simp_all

/-- The checks of `DECODE` both pass exactly when the image can hold a prefix (42_decoder.md R172). -/
theorem decodeCheck_none {s : State} :
    decodeCheck s = none ↔ s.imgOk = true ∧ 32 ≤ s.w.toNat * s.h.toNat * 3 := by
  simp only [decodeCheck, State.capacityBits, usedChannels, prefixBits]
  split_ifs <;> simp_all

/-- A failing check never gives `BUSY`. -/
theorem encodeCheck_ne_busy {s : State} {k : ResultKind} (h : encodeCheck s = some k) :
    k.isError = true ∧ k ≠ .busy ∧ k ≠ .none ∧ k ≠ .outputWriteError := by
  simp only [encodeCheck] at h
  split_ifs at h <;> cases h <;> decide

theorem decodeCheck_ne_busy {s : State} {k : ResultKind} (h : decodeCheck s = some k) :
    k.isError = true ∧ k ≠ .busy ∧ k ≠ .none ∧ k ≠ .outputWriteError := by
  simp only [decodeCheck] at h
  split_ifs at h <;> cases h <;> decide

/-! ### The sequencer and the step -/

/-- All a bit step can have done when it answers a next state. -/
inductive BitStepCase (s t : State) : Prop where
  | encodePrefix (hp : s.phase = .prefixPhase) (ho : s.op = encode .encode) (hc : s.cursor.toNat < 32)
      (hb : s.cursor.toNat < s.w.toNat * s.h.toNat * 3) (ht : t = encodePrefixNext s)
  | decodePrefix (hp : s.phase = .prefixPhase) (ho : s.op = encode .decode) (hc : s.cursor.toNat < 32)
      (hb : s.cursor.toNat < s.w.toNat * s.h.toNat * 3) (ht : t = decodePrefixNext s)
  | encodePayload (hp : s.phase = .payloadPhase) (ho : s.op = encode .encode) (hc : 32 ≤ s.cursor.toNat)
      (hl : s.cursor.toNat < 32 + 8 * s.len.toNat)
      (hb : s.cursor.toNat < s.w.toNat * s.h.toNat * 3) (ht : t = encodePayloadNext s)
  | decodePayload (hp : s.phase = .payloadPhase) (ho : s.op = encode .decode) (hc : 32 ≤ s.cursor.toNat)
      (hl : s.cursor.toNat < 32 + 8 * s.len.toNat)
      (hb : s.cursor.toNat < s.w.toNat * s.h.toNat * 3) (ht : t = decodePayloadNext s)

theorem bitStep_cases {s t : State} (hm : s.img.wf = true) (h : bitStep s = .next t) : BitStepCase s t := by
  cases hp : s.phase <;> simp only [bitStep, hp, prefixBits, frameBitLength] at h
  · cases h
  · split_ifs at h with hc h1 h2
    · obtain ⟨hb, ht⟩ := encodePrefixStep_next hm h
      exact .encodePrefix hp h1 hc hb ht
    · obtain ⟨hb, ht⟩ := decodePrefixStep_next h
      exact .decodePrefix hp h2 hc hb ht
  · split_ifs at h with hc h1 h2
    · obtain ⟨hb, -, ht⟩ := encodePayloadStep_next hm h
      exact .encodePayload hp h1 hc.1 hc.2 hb ht
    · obtain ⟨hb, ht⟩ := decodePayloadStep_next h
      exact .decodePayload hp h2 hc.1 hc.2 hb ht

/-- Whose move a step is. -/
theorem step_of_nil {s : State} (h : s.host = []) :
    step s = if s.isBusy = true then bitStep s else .next s := by
  simp [step, nextMove, h]

theorem step_of_cons {s : State} {a : HostAction} {rest : List HostAction} (h : s.host = a :: rest) :
    step s = if (a.waits && s.isBusy) = true then bitStep s else hostMove a (s.setHost rest) := by
  simp [step, nextMove, h]

/-- A busy core that the host leaves alone takes its bit step. -/
theorem step_busy {s : State} (hb : s.phase ≠ .idle) (hw : hostWaits s.host = true) : step s = bitStep s := by
  have hbusy : s.isBusy = true := by cases hp : s.phase <;> simp_all [State.isBusy]
  cases hh : s.host with
  | nil => rw [step_of_nil hh, if_pos hbusy]
  | cons a rest =>
    rw [hh] at hw
    rw [step_of_cons hh, if_pos (by simpa [hbusy, hostWaits] using hw)]

/-- A step is a bit step, an idle stutter, or the host's next move. -/
theorem step_cases {s t : State} (h : step s = .next t) :
    (s.phase ≠ .idle ∧ hostWaits s.host = true ∧ bitStep s = .next t) ∨
    (s.phase = .idle ∧ s.host = [] ∧ t = s) ∨
    (∃ a rest, s.host = a :: rest ∧ (a.waits = true → s.phase = .idle) ∧
      hostMove a (s.setHost rest) = .next t) := by
  have hbusy : s.isBusy = true ↔ s.phase ≠ .idle := by cases hp : s.phase <;> simp [State.isBusy, hp]
  cases hh : s.host with
  | nil =>
    rw [step_of_nil hh] at h
    split_ifs at h with hb
    · exact .inl ⟨hbusy.1 hb, rfl, h⟩
    · refine .inr (.inl ⟨?_, rfl, (Host.Outcome.next.inj h).symm⟩)
      by_contra hne
      exact hb (hbusy.2 hne)
  | cons a rest =>
    rw [step_of_cons hh] at h
    split_ifs at h with hb
    · rw [Bool.and_eq_true] at hb
      exact .inl ⟨hbusy.1 hb.2, hb.1, h⟩
    · refine .inr (.inr ⟨a, rest, rfl, fun hw => ?_, h⟩)
      by_contra hne
      exact hb (by rw [Bool.and_eq_true]; exact ⟨hw, hbusy.2 hne⟩)

/-! ### Frames without premises -/

theorem OperandsKept.refl (s : State) : OperandsKept s s := ⟨rfl, rfl, rfl, rfl, rfl, rfl, rfl, rfl, rfl, rfl, rfl⟩

theorem OperandsKept.trans {s t u : State} (h : OperandsKept s t) (h' : OperandsKept t u) : OperandsKept s u :=
  ⟨h'.w.trans h.w, h'.h.trans h.h, h'.env.trans h.env, h'.plen.trans h.plen, h'.b.trans h.b, h'.x.trans h.x,
    h'.y.trans h.y, h'.ch.trans h.ch, h'.params.trans h.params, h'.seen.trans h.seen, h'.draws.trans h.draws⟩

/-- What a bit step of any busy state leaves alone. -/
structure BitStepFrame (s t : State) : Prop where
  kept : OperandsKept s t
  op : t.op = s.op
  host : t.host = s.host
  status : t.status = s.status ∨ t.status = .ok ∨ t.status = .invalidLengthError ∨ t.status = .emptyPayloadWarning
  cursor : t.cursor = BitVec.ofNat 36 (s.cursor.toNat + 1)
  encodePay : s.op = encode .encode → t.pay = s.pay
  decodeImg : s.op = encode .decode → t.img = s.img

/-! ### The end of a `DECODE` payload step -/

@[simp] theorem decodePayloadAdvance_op (n : Nat) (s : State) : (decodePayloadAdvance n s).op = s.op := by
  simp only [decodePayloadAdvance, done]; split_ifs <;> rfl

@[simp] theorem decodePayloadAdvance_env (n : Nat) (s : State) : (decodePayloadAdvance n s).env = s.env := by
  simp only [decodePayloadAdvance, done]; split_ifs <;> rfl

@[simp] theorem decodePayloadAdvance_w (n : Nat) (s : State) : (decodePayloadAdvance n s).w = s.w := by
  simp only [decodePayloadAdvance, done]; split_ifs <;> rfl

@[simp] theorem decodePayloadAdvance_h (n : Nat) (s : State) : (decodePayloadAdvance n s).h = s.h := by
  simp only [decodePayloadAdvance, done]; split_ifs <;> rfl

@[simp] theorem decodePayloadAdvance_b (n : Nat) (s : State) : (decodePayloadAdvance n s).b = s.b := by
  simp only [decodePayloadAdvance, done]; split_ifs <;> rfl

@[simp] theorem decodePayloadAdvance_plen (n : Nat) (s : State) : (decodePayloadAdvance n s).plen = s.plen := by
  simp only [decodePayloadAdvance, done]; split_ifs <;> rfl

@[simp] theorem decodePayloadAdvance_len (n : Nat) (s : State) : (decodePayloadAdvance n s).len = s.len := by
  simp only [decodePayloadAdvance, done]; split_ifs <;> rfl

@[simp] theorem decodePayloadAdvance_x (n : Nat) (s : State) : (decodePayloadAdvance n s).x = s.x := by
  simp only [decodePayloadAdvance, done]; split_ifs <;> rfl

@[simp] theorem decodePayloadAdvance_y (n : Nat) (s : State) : (decodePayloadAdvance n s).y = s.y := by
  simp only [decodePayloadAdvance, done]; split_ifs <;> rfl

@[simp] theorem decodePayloadAdvance_ch (n : Nat) (s : State) : (decodePayloadAdvance n s).ch = s.ch := by
  simp only [decodePayloadAdvance, done]; split_ifs <;> rfl

@[simp] theorem decodePayloadAdvance_acc (n : Nat) (s : State) : (decodePayloadAdvance n s).acc = s.acc := by
  simp only [decodePayloadAdvance, done]; split_ifs <;> rfl

@[simp] theorem decodePayloadAdvance_img (n : Nat) (s : State) : (decodePayloadAdvance n s).img = s.img := by
  simp only [decodePayloadAdvance, done]; split_ifs <;> rfl

@[simp] theorem decodePayloadAdvance_pay (n : Nat) (s : State) : (decodePayloadAdvance n s).pay = s.pay := by
  simp only [decodePayloadAdvance, done]; split_ifs <;> rfl

@[simp] theorem decodePayloadAdvance_params (n : Nat) (s : State) : (decodePayloadAdvance n s).params = s.params := by
  simp only [decodePayloadAdvance, done]; split_ifs <;> rfl

@[simp] theorem decodePayloadAdvance_host (n : Nat) (s : State) : (decodePayloadAdvance n s).host = s.host := by
  simp only [decodePayloadAdvance, done]; split_ifs <;> rfl

@[simp] theorem decodePayloadAdvance_seen (n : Nat) (s : State) : (decodePayloadAdvance n s).seen = s.seen := by
  simp only [decodePayloadAdvance, done]; split_ifs <;> rfl

@[simp] theorem decodePayloadAdvance_draws (n : Nat) (s : State) : (decodePayloadAdvance n s).draws = s.draws := by
  simp only [decodePayloadAdvance, done]; split_ifs <;> rfl

theorem decodePayloadAdvance_last {n : Nat} {s : State} (h : n + 1 = 32 + 8 * s.len.toNat) :
    decodePayloadAdvance n s = (s.setCursor (n + 1)).finish .ok := if_pos h

theorem decodePayloadAdvance_more {n : Nat} {s : State} (h : n + 1 ≠ 32 + 8 * s.len.toNat) :
    decodePayloadAdvance n s = s.setCursor (n + 1) := if_neg h

/-! ### The length validation -/

theorem validateLength_invalid {s : State} (h : s.w.toNat * s.h.toNat * 3 < 32 + 8 * s.len.toNat) :
    validateLength s = s.finish .invalidLengthError := if_pos h

theorem validateLength_empty {s : State} (h : 32 + 8 * s.len.toNat ≤ s.w.toNat * s.h.toNat * 3)
    (h0 : s.len.toNat = 0) : validateLength s = s.finish .emptyPayloadWarning :=
  (if_neg (Nat.not_lt.2 h)).trans (if_pos h0)

theorem validateLength_valid {s : State} (h : 32 + 8 * s.len.toNat ≤ s.w.toNat * s.h.toNat * 3)
    (h0 : 1 ≤ s.len.toNat) : validateLength s = (s.setPhase .payloadPhase).setAcc 0 :=
  (if_neg (Nat.not_lt.2 h)).trans (if_neg (Nat.ne_of_gt h0))

theorem validateLength_frame (s : State) :
    OperandsKept s (validateLength s) ∧ (validateLength s).op = s.op ∧ (validateLength s).host = s.host ∧
      ((validateLength s).status = s.status ∨ (validateLength s).status = .invalidLengthError ∨
        (validateLength s).status = .emptyPayloadWarning) ∧
      (validateLength s).cursor = s.cursor ∧ (validateLength s).img = s.img ∧ (validateLength s).pay = s.pay ∧
      (validateLength s).len = s.len := by
  simp only [validateLength, raise, done]
  split_ifs <;> exact ⟨by constructor <;> rfl, by simp⟩

theorem bitStep_frame {s t : State} (h : bitStep s = .next t) : BitStepFrame s t := by
  have hne : encode .encode ≠ encode .decode := by decide
  have stepFrame : ∀ (m : Memory) (k : ResultKind) (p : Phase) (u : State),
      u = ((s.setImg m).setCursor (s.cursor.toNat + 1)) ∨
      u = ((s.setImg m).setCursor (s.cursor.toNat + 1)).finish .ok ∨
      u = ((s.setImg m).setCursor (s.cursor.toNat + 1)).setPhase p → s.op = encode .encode → BitStepFrame s u := by
    rintro m k p u (rfl | rfl | rfl) ho <;>
      exact ⟨by constructor <;> rfl, rfl, rfl, by simp, rfl, fun _ => rfl, fun h' => absurd (ho.symm.trans h') hne⟩
  cases hp : s.phase <;> simp only [bitStep, hp] at h
  · cases h
  · split_ifs at h with hc h1 h2
    · obtain ⟨s', h3, h4⟩ := andThen_eq_next.1 h
      obtain ⟨m, rfl⟩ := putFrameBit_frame h3
      refine stepFrame m .ok .payloadPhase t ?_ h1
      split_ifs at h4 <;> cases h4 <;> simp [done]
    · obtain ⟨-, rfl⟩ := decodePrefixStep_next h
      simp only [decodePrefixNext]
      split_ifs
      · obtain ⟨k, ho, hh, hs, hcur, hi, hpy, -⟩ := validateLength_frame
          ((s.setLen (s.len ||| bitAt 32 (s.lsbAt s.cursor.toNat) s.cursor.toNat)).setCursor (s.cursor.toNat + 1))
        exact ⟨OperandsKept.trans (by constructor <;> rfl) k, ho, hh, by rcases hs with h | h | h <;> simp [h], hcur,
          fun _ => hpy, fun _ => hi⟩
      · exact ⟨by constructor <;> rfl, rfl, rfl, .inl rfl, rfl, fun _ => rfl, fun _ => rfl⟩
  · split_ifs at h with hc h1 h2
    · obtain ⟨v, -, h3⟩ := andThen_eq_next.1 h
      obtain ⟨s', h3, h4⟩ := andThen_eq_next.1 h3
      obtain ⟨m, rfl⟩ := putFrameBit_frame h3
      refine stepFrame m .ok .payloadPhase t ?_ h1
      split_ifs at h4 <;> cases h4 <;> simp [done]
    · obtain ⟨-, rfl⟩ := decodePayloadStep_next h
      simp only [decodePayloadNext, decodePayloadAdvance, done]
      split_ifs <;>
        exact ⟨by constructor <;> rfl, rfl, rfl, by simp, rfl, fun h' => absurd (h'.symm.trans h2) hne, fun _ => rfl⟩

/-- What the start step of any command leaves alone. -/
theorem exec_frame {i : Instr} {s t : State} (h : exec i s = .next t) :
    s.phase = .idle ∧ t.env = s.env ∧ t.w = s.w ∧ t.h = s.h ∧ t.b = s.b ∧ t.plen = s.plen ∧ t.params = s.params ∧
      t.host = s.host ∧ t.seen = s.seen ∧ t.draws = s.draws ∧ t.img = s.img ∧ t.pay = s.pay ∧ t.op = encode i ∧
      (t.cursor = s.cursor ∨ t.cursor = 0) ∧ t.status ≠ .none ∧ t.status ≠ .outputWriteError ∧
      (i ≠ .addr → t.x = s.x ∧ t.y = s.y ∧ t.ch = s.ch) := by
  cases i with
  | addr =>
    obtain ⟨hi, -⟩ := whenIdle_next h
    simp only [exec, execAddr_idle hi] at h
    split_ifs at h
    cases h
    simp [hi]
  | encode =>
    obtain ⟨hi, -⟩ := whenIdle_next h
    simp only [exec, execEncode_idle hi] at h
    cases hc : encodeCheck s with
    | none => simp only [hc] at h; cases h; simp [hi]
    | some k =>
      have := encodeCheck_ne_busy hc
      simp only [hc] at h; cases h; simp [hi, this]
  | decode =>
    obtain ⟨hi, -⟩ := whenIdle_next h
    simp only [exec, execDecode_idle hi] at h
    cases hc : decodeCheck s with
    | none => simp only [hc] at h; cases h; simp [hi]
    | some k =>
      have := decodeCheck_ne_busy hc
      simp only [hc] at h; cases h; simp [hi, this]

/-! ### Widths -/

/-- Moving the cursor on is exact below the width of the register. -/
theorem toNat_cursor_succ {n : Nat} (h : n + 1 < 2 ^ 36) : (BitVec.ofNat 36 (n + 1)).toNat = n + 1 := by
  rw [BitVec.toNat_ofNat, Nat.mod_eq_of_lt h]

/-- Setting a bit above all that are set adds its weight (44_sequencing_and_access.md R213). -/
theorem toNat_or_bitAt {w b : Nat} (v : BitVec w) (bit : Bool) (hv : v.toNat < 2 ^ b) (hb : b < w) :
    (v ||| bitAt w bit b).toNat = v.toNat + (if bit then 2 ^ b else 0) := by
  have hw : 2 ^ b < 2 ^ w := Nat.pow_lt_pow_right (by omega) hb
  cases bit with
  | false =>
    have : bitAt w false b = 0#w := by
      apply BitVec.eq_of_toNat_eq
      simp [bitAt]
    simp [this]
  | true =>
    have h1 : (bitAt w true b).toNat = 2 ^ b := by
      have hw1 : 1 < 2 ^ w := Nat.one_lt_two_pow (by omega)
      simp only [bitAt, BitVec.toNat_shiftLeft, BitVec.toNat_setWidth, BitVec.ofBool_true]
      simp [Nat.mod_eq_of_lt hw1, Nat.shiftLeft_eq, Nat.mod_eq_of_lt hw]
    rw [BitVec.toNat_or, h1, if_pos rfl, Nat.or_comm, Nat.add_comm]
    have := Nat.two_pow_add_eq_or_of_lt hv 1
    simpa [eq_comm] using this

/-! ### Whether a bit step answers a next state does not depend on the contents of the memories -/

/-- Two states that differ at most in their memories, in what the host is doing and in `ACC`. -/
structure SameControl (s s' : State) : Prop where
  phase : s'.phase = s.phase
  op : s'.op = s.op
  cursor : s'.cursor = s.cursor
  len : s'.len = s.len
  w : s'.w = s.w
  h : s'.h = s.h
  params : s'.params = s.params

theorem putFrameBit_next_of_same {s s' u : State} {b : Nat} {bit : Bool} (c : SameControl s s')
    (hm : s.img.wf = true) (hm' : s'.img.wf = true) (h : putFrameBit b bit s = .next u) (bit' : Bool) :
    putFrameBit b bit' s' = .next (s'.setImg (s'.imgWith b bit')) := by
  rw [putFrameBit_eq b bit hm] at h
  split_ifs at h with h1 h2 h3
  rw [putFrameBit_eq b bit' hm', c.w, c.h, c.params, if_neg h1, if_pos h2, if_pos h3, State.imgWith, c.params]

theorem getFrameBit_next_of_same {s s' : State} {b : Nat} {bit : Bool} (c : SameControl s s')
    (h : getFrameBit b s = .next bit) : getFrameBit b s' = .next (s'.lsbAt b) := by
  rw [getFrameBit_eq] at h
  split_ifs at h with h1 h2 h3
  rw [getFrameBit_eq, c.w, c.h, c.params, if_neg h1, if_pos h2, if_pos h3]

/-- The state after the bit step of a busy state, by `PHASE` and `OP`. -/
def bitNext (s : State) : State :=
  if s.phase = .prefixPhase then
    if s.op = encode .encode then encodePrefixNext s else decodePrefixNext s
  else if s.op = encode .encode then encodePayloadNext s else decodePayloadNext s

/-- Where one state's bit step answers a next state, so does that of every state with the same control, and it is
`bitNext`. -/
theorem bitStep_next_of_same {s s' t : State} (c : SameControl s s') (hm : s.img.wf = true)
    (hm' : s.op = encode .encode → s'.img.wf = true) (h : bitStep s = .next t) : bitStep s' = .next (bitNext s') := by
  cases hp : s.phase <;> simp only [bitStep, hp, prefixBits, frameBitLength] at h <;>
    simp only [bitStep, bitNext, c.phase, c.op, c.cursor, c.len, hp, prefixBits, frameBitLength]
  · cases h
  · split_ifs at h with hc h1 h2
    · obtain ⟨u, hu, -⟩ := andThen_eq_next.1 h
      rw [if_pos hc, if_pos h1, if_pos trivial, if_pos h1, encodePrefixStep, c.cursor,
        putFrameBit_next_of_same c hm (hm' h1) hu, andThen_next, encodePrefixNext, c.cursor]
      split_ifs <;> rfl
    · obtain ⟨u, hu, -⟩ := andThen_eq_next.1 h
      rw [if_pos hc, if_neg h1, if_pos h2, if_pos trivial, if_neg h1, decodePrefixStep, c.cursor,
        getFrameBit_next_of_same c hu, andThen_next, decodePrefixNext, c.cursor]
      split_ifs <;> rfl
  · split_ifs at h with hc h1 h2
    · obtain ⟨v, hv, h⟩ := andThen_eq_next.1 h
      obtain ⟨u, hu, -⟩ := andThen_eq_next.1 h
      simp only [loadPay] at hv
      split_ifs at hv with hf
      rw [if_pos hc, if_pos h1, if_neg (by decide), if_pos h1, encodePayloadStep, loadPay, c.cursor, c.params, if_pos hf,
        andThen_next, putFrameBit_next_of_same c hm (hm' h1) hu, andThen_next, encodePayloadNext, c.cursor]
      simp only [prefixBits]
      split_ifs <;> rfl
    · obtain ⟨u, hu, h⟩ := andThen_eq_next.1 h
      rw [if_pos hc, if_neg h1, if_pos h2, if_neg (by decide), if_neg h1, decodePayloadStep, c.cursor,
        getFrameBit_next_of_same c hu, andThen_next, decodePayloadNext, c.cursor]
      simp only [prefixBits] at h ⊢
      by_cases hj : (s.cursor.toNat - 32) % 8 < 7
      · rw [if_pos hj, if_pos hj]
      · rw [if_neg hj] at h
        obtain ⟨u', hu', -⟩ := andThen_eq_next.1 h
        simp only [storePay] at hu'
        split_ifs at hu' with hf
        rw [if_neg hj, if_neg hj, storePay, c.params, if_pos hf, andThen_next]

/-! ### What the bit steps read of the memories: the next state with other contents -/

theorem encodePrefixNext_setImg (s : State) (m : Memory) :
    encodePrefixNext (s.setImg m) =
      (encodePrefixNext s).setImg ((s.setImg m).imgWith s.cursor.toNat (bitOf s.len s.cursor.toNat)) := by
  simp only [encodePrefixNext]
  by_cases h1 : s.cursor.toNat = 31
  · rw [if_pos h1, if_pos (show (s.setImg m).cursor.toNat = 31 from h1)]
    by_cases h2 : s.len.toNat = 0
    · rw [if_pos h2, if_pos (show (s.setImg m).len.toNat = 0 from h2)]
      rfl
    · rw [if_neg h2, if_neg (show (s.setImg m).len.toNat ≠ 0 from h2)]
      rfl
  · rw [if_neg h1, if_neg (show (s.setImg m).cursor.toNat ≠ 31 from h1)]
    rfl

theorem encodePrefixNext_setPay (s : State) (p : Memory) :
    encodePrefixNext (s.setPay p) = (encodePrefixNext s).setPay p := by
  simp only [encodePrefixNext]
  by_cases h1 : s.cursor.toNat = 31
  · rw [if_pos h1, if_pos (show (s.setPay p).cursor.toNat = 31 from h1)]
    by_cases h2 : s.len.toNat = 0
    · rw [if_pos h2, if_pos (show (s.setPay p).len.toNat = 0 from h2)]
      rfl
    · rw [if_neg h2, if_neg (show (s.setPay p).len.toNat ≠ 0 from h2)]
      rfl
  · rw [if_neg h1, if_neg (show (s.setPay p).cursor.toNat ≠ 31 from h1)]
    rfl

theorem encodePayloadNext_setImg (s : State) (m : Memory) :
    encodePayloadNext (s.setImg m) =
      (encodePayloadNext s).setImg ((s.setImg m).imgWith s.cursor.toNat
        (bitOf (s.pay.read ((s.cursor.toNat - 32) / 8)) ((s.cursor.toNat - 32) % 8))) := by
  simp only [encodePayloadNext]
  by_cases h1 : s.cursor.toNat + 1 = frameBitLength s.len.toNat
  · rw [if_pos h1, if_pos (show (s.setImg m).cursor.toNat + 1 = frameBitLength (s.setImg m).len.toNat from h1)]
    rfl
  · rw [if_neg h1, if_neg (show ¬ ((s.setImg m).cursor.toNat + 1 = frameBitLength (s.setImg m).len.toNat) from h1)]
    rfl

theorem encodePayloadNext_setPay (s : State) (p : Memory)
    (h : p.read ((s.cursor.toNat - 32) / 8) = s.pay.read ((s.cursor.toNat - 32) / 8)) :
    encodePayloadNext (s.setPay p) = (encodePayloadNext s).setPay p := by
  have hr : (s.setPay p).pay.read (((s.setPay p).cursor.toNat - 32) / 8) = s.pay.read ((s.cursor.toNat - 32) / 8) := h
  simp only [encodePayloadNext]
  rw [hr]
  by_cases h1 : s.cursor.toNat + 1 = frameBitLength s.len.toNat
  · rw [if_pos h1, if_pos (show (s.setPay p).cursor.toNat + 1 = frameBitLength (s.setPay p).len.toNat from h1)]
    rfl
  · rw [if_neg h1, if_neg (show ¬ ((s.setPay p).cursor.toNat + 1 = frameBitLength (s.setPay p).len.toNat) from h1)]
    rfl

theorem validateLength_setImg (s : State) (m : Memory) :
    validateLength (s.setImg m) = (validateLength s).setImg m := by
  simp only [validateLength]
  by_cases h1 : s.capacityBits < frameBitLength s.len.toNat
  · rw [if_pos h1, if_pos (show (s.setImg m).capacityBits < frameBitLength (s.setImg m).len.toNat from h1)]
    rfl
  · rw [if_neg h1, if_neg (show ¬ (s.setImg m).capacityBits < frameBitLength (s.setImg m).len.toNat from h1)]
    by_cases h2 : s.len.toNat = 0
    · rw [if_pos h2, if_pos (show (s.setImg m).len.toNat = 0 from h2)]
      rfl
    · rw [if_neg h2, if_neg (show (s.setImg m).len.toNat ≠ 0 from h2)]
      rfl

theorem validateLength_setPay (s : State) (p : Memory) :
    validateLength (s.setPay p) = (validateLength s).setPay p := by
  simp only [validateLength]
  by_cases h1 : s.capacityBits < frameBitLength s.len.toNat
  · rw [if_pos h1, if_pos (show (s.setPay p).capacityBits < frameBitLength (s.setPay p).len.toNat from h1)]
    rfl
  · rw [if_neg h1, if_neg (show ¬ (s.setPay p).capacityBits < frameBitLength (s.setPay p).len.toNat from h1)]
    by_cases h2 : s.len.toNat = 0
    · rw [if_pos h2, if_pos (show (s.setPay p).len.toNat = 0 from h2)]
      rfl
    · rw [if_neg h2, if_neg (show (s.setPay p).len.toNat ≠ 0 from h2)]
      rfl

theorem decodePrefixNext_setImg (s : State) (m : Memory)
    (h : (s.setImg m).lsbAt s.cursor.toNat = s.lsbAt s.cursor.toNat) :
    decodePrefixNext (s.setImg m) = (decodePrefixNext s).setImg m := by
  have hl : (s.setImg m).lsbAt (s.setImg m).cursor.toNat = s.lsbAt s.cursor.toNat := h
  simp only [decodePrefixNext]
  rw [hl]
  by_cases h1 : s.cursor.toNat = 31
  · rw [if_pos h1, if_pos (show (s.setImg m).cursor.toNat = 31 from h1)]
    rw [← validateLength_setImg]
    rfl
  · rw [if_neg h1, if_neg (show ¬ ((s.setImg m).cursor.toNat = 31) from h1)]
    rfl

theorem decodePrefixNext_setPay (s : State) (p : Memory) :
    decodePrefixNext (s.setPay p) = (decodePrefixNext s).setPay p := by
  have hl : (s.setPay p).lsbAt (s.setPay p).cursor.toNat = s.lsbAt s.cursor.toNat := rfl
  simp only [decodePrefixNext]
  rw [hl]
  by_cases h1 : s.cursor.toNat = 31
  · rw [if_pos h1, if_pos (show (s.setPay p).cursor.toNat = 31 from h1)]
    rw [← validateLength_setPay]
    rfl
  · rw [if_neg h1, if_neg (show ¬ ((s.setPay p).cursor.toNat = 31) from h1)]
    rfl

theorem decodePayloadAdvance_setImg (n : Nat) (s : State) (m : Memory) :
    decodePayloadAdvance n (s.setImg m) = (decodePayloadAdvance n s).setImg m := by
  simp only [decodePayloadAdvance]
  by_cases h1 : n + 1 = frameBitLength s.len.toNat
  · rw [if_pos h1, if_pos (show n + 1 = frameBitLength (s.setImg m).len.toNat from h1)]
    rfl
  · rw [if_neg h1, if_neg (show ¬ (n + 1 = frameBitLength (s.setImg m).len.toNat) from h1)]
    rfl

theorem decodePayloadAdvance_setPay (n : Nat) (s : State) (p : Memory) :
    decodePayloadAdvance n (s.setPay p) = (decodePayloadAdvance n s).setPay p := by
  simp only [decodePayloadAdvance]
  by_cases h1 : n + 1 = frameBitLength s.len.toNat
  · rw [if_pos h1, if_pos (show n + 1 = frameBitLength (s.setPay p).len.toNat from h1)]
    rfl
  · rw [if_neg h1, if_neg (show ¬ (n + 1 = frameBitLength (s.setPay p).len.toNat) from h1)]
    rfl

theorem decodePayloadNext_setImg (s : State) (m : Memory)
    (h : (s.setImg m).lsbAt s.cursor.toNat = s.lsbAt s.cursor.toNat) :
    decodePayloadNext (s.setImg m) = (decodePayloadNext s).setImg m := by
  have hl : (s.setImg m).lsbAt (s.setImg m).cursor.toNat = s.lsbAt s.cursor.toNat := h
  simp only [decodePayloadNext]
  rw [hl]
  by_cases h1 : (s.cursor.toNat - 32) % 8 < 7
  · rw [if_pos h1, if_pos (show ((s.setImg m).cursor.toNat - 32) % 8 < 7 from h1)]
    rw [← decodePayloadAdvance_setImg]
    rfl
  · rw [if_neg h1, if_neg (show ¬ (((s.setImg m).cursor.toNat - 32) % 8 < 7) from h1)]
    rw [← decodePayloadAdvance_setImg]
    rfl

/-- Before the last bit of a byte a `DECODE` payload step leaves `PAY` alone; with it, the step stores one byte. -/
theorem decodePayloadNext_setPay (s : State) (p : Memory) :
    decodePayloadNext (s.setPay p) = (decodePayloadNext s).setPay
      (if (s.cursor.toNat - 32) % 8 < 7 then p
        else p.write ((s.cursor.toNat - 32) / 8)
          (s.acc ||| bitAt 8 (s.lsbAt s.cursor.toNat) ((s.cursor.toNat - 32) % 8))) := by
  have hl : (s.setPay p).lsbAt (s.setPay p).cursor.toNat = s.lsbAt s.cursor.toNat := rfl
  simp only [decodePayloadNext]
  rw [hl]
  by_cases h1 : (s.cursor.toNat - 32) % 8 < 7
  · rw [if_pos h1, if_pos h1, if_pos (show ((s.setPay p).cursor.toNat - 32) % 8 < 7 from h1)]
    rw [← decodePayloadAdvance_setPay]
    rfl
  · rw [if_neg h1, if_neg h1, if_neg (show ¬ ((s.setPay p).cursor.toNat - 32) % 8 < 7 from h1), ← decodePayloadAdvance_setPay]
    rfl

/-- A bit step neither looks at the host's moves nor at what the host has seen. -/
theorem bitStep_of_other_host {s t : State} (hm : s.img.wf = true) (h : bitStep s = .next t) (l : List HostAction)
    (v : List HostSeen) : bitStep { s with host := l, seen := v } = .next { t with host := l, seen := v } := by
  have ht : t = bitNext s :=
    Host.Outcome.next.inj (h.symm.trans (bitStep_next_of_same ⟨rfl, rfl, rfl, rfl, rfl, rfl, rfl⟩ hm (fun _ => hm) h))
  rw [bitStep_next_of_same (s := s) (s' := { s with host := l, seen := v }) ⟨rfl, rfl, rfl, rfl, rfl, rfl, rfl⟩ hm (fun _ => hm) h, ht]
  simp only [bitNext, encodePrefixNext, decodePrefixNext, encodePayloadNext, decodePayloadNext, decodePayloadAdvance,
    validateLength]
  (repeat' split) <;> first | rfl | (exfalso; simp_all [State.capacityBits, State.lsbAt] <;> omega)

/-- Each turn of `WAIT` is a read of `PHASE`, and while busy one of the core follows. -/
theorem step_wait_idle {s : State} {rest : List HostAction} (h : s.host = .wait :: rest) (hp : s.phase = .idle) :
    step s = .next { s with host := rest, seen := s.seen ++ [.reg 0x2 0] } := by
  have hb : s.isBusy = false := by simp [State.isBusy, hp]
  rw [step_of_cons h, hb]
  simp [hostMove, hostPoll, hostRead, State.see, State.setHost, State.isBusy, hp, Reg.index, Reg.ofIndex, State.readReg,
    Phase.code]

theorem step_wait_busy {s : State} {rest : List HostAction} (h : s.host = .wait :: rest) (hp : s.phase ≠ .idle) :
    step s = .next { s with host := .coreStep :: .wait :: rest, seen := s.seen ++ [.reg 0x2 s.phase.code.toNat] } := by
  rw [step_of_cons h]
  cases hq : s.phase with
  | idle => exact absurd hq hp
  | prefixPhase | payloadPhase =>
    simp [HostAction.waits, hostMove, hostPoll, hostRead, State.see, State.setHost, State.isBusy, hq, Reg.index,
      Reg.ofIndex, State.readReg, Phase.code]

end Sys2Proof.Machine
end

