-- ==== Sys2Proof/Tests/Slice0.lean ====
section
/-! SUPPORT. Tests: expected results are the spec's own vectors (95_test_vectors.md) and examples, one step each.
And one witness per clause of every obligation with hypotheses: a concrete state and operands that meet them. -/

namespace Sys2Proof.Tests

open Sys2Proof Sys2Proof.Machine

/-! ### Helpers -/

/-- What a next state holds; nothing for a stop. -/
def look {α : Type} (r : Res State) (f : State → α) : Option α :=
  match r with
  | .next s => some (f s)
  | .fault _ => none
  | .refused _ => none

/-- The reason of a refusal. -/
def whyRefused (r : Res State) : Option Refusal :=
  match r with
  | .next _ => none
  | .fault _ => none
  | .refused f => some f

/-- An idle block with dimensions, `ENV` and `PLEN`. -/
def idle (w h : BitVec 32) (env : BitVec 2) (plen : BitVec 64) : State :=
  { State.reset with w := w, h := h, env := env, plen := plen }

/-- A busy block. -/
def busy (p : Phase) (i : Instr) (w h len : BitVec 32) (cursor : BitVec 36) : State :=
  { State.reset with status := .busy, phase := p, op := encode i, w := w, h := h, len := len, cursor := cursor }

/-- The block with these moves of the host pending. -/
def withHost (s : State) (l : List HostAction) : State := { s with host := l }

/-! ### Encodings: the words of 30_encoding.md R91 and of the opcode table -/

theorem test_word_00_is_addr : decode 0b00#2 = .command .addr := by decide
theorem test_word_01_is_encode : decode 0b01#2 = .command .encode := by decide
theorem test_word_10_is_decode : decode 0b10#2 = .command .decode := by decide
theorem test_word_11_is_reserved : decode 0b11#2 = .reservedOpcode := by decide
theorem test_table_words :
    decodeTableWord 2 0 = some .addr ∧ decodeTableWord 8 1 = some .encode ∧ decodeTableWord 8 2 = some .decode ∧
      decodeTableWord 2 3 = none := by decide

/-- 10_state.md R22: a host write to `CMD` presents `v[1:0]`. -/
theorem test_command_word_takes_two_bits : commandWord 6 = 0b10#2 := by decide

/-! ### Well-formedness: an ill-formed term for each check, refused -/

theorem test_wf_commands : Instr.addr.wf = true ∧ Instr.encode.wf = true ∧ Instr.decode.wf = true := by decide
theorem test_wf_write_to_reserved_index : (HostAction.wr 0xE 0).wf = false := by decide
theorem test_wf_read_of_reserved_index : (HostAction.rd 0xF).wf = false := by decide
theorem test_wf_read_of_write_only_cmd : (HostAction.rd 0x0).wf = false := by decide
theorem test_wf_value_too_wide :
    (HostAction.wr 0x5 4294967296).wf = false ∧ (HostAction.wr 0x0 4).wf = false ∧
      (HostAction.wr 0x5 4294967295).wf = true := by decide

/-! ### ADDR: 95_test_vectors.md V2, V3 -/

theorem test_addr_row_and_channel :
    look (exec .addr { idle 4 0 0 0 with b := 34 }) (fun s => (s.x.toNat, s.y.toNat, s.ch.toNat, s.status, s.op)) =
      some (3, 2, 1, .ok, 0) := by decide

theorem test_addr_widest_row :
    look (exec .addr { idle 1 0 0 0 with b := 73786976294838206463 }) (fun s => (s.x.toNat, s.y.toNat, s.ch.toNat)) =
      some (0, 24595658764946068821, 0) := by decide

theorem test_addr_width_zero_refused : whyRefused (exec .addr (idle 0 0 0 0)) = some .addrWidthZero := by decide

/-! ### ENCODE: V43, V46, the examples of 41_encoder.md R149 and R150, the layout of V1 with `NCH = 4` -/

theorem test_encode_too_large_before_capacity :
    look (exec .encode (idle 0 0 3 4294967296)) (fun s => (s.status, s.phase)) =
      some (.payloadTooLargeError, .idle) := by decide

theorem test_encode_accepts_longest :
    look (exec .encode (idle 4294967295 4294967295 3 4294967295)) (fun s => (s.status, s.phase, s.len, s.cursor)) =
      some (.busy, .prefixPhase, 4294967295, 0) := by decide

/-- R149: `LEN = 2`, `b = 1`, `W = 4`: byte 1 of `IMG` gets bit 0 set; V20 starts it at `0A` and ends it at `0B`. -/
theorem test_encode_prefix_bit :
    look (step { busy .prefixPhase .encode 4 4 2 1 with img := [(0, 0x02), (1, 0x0A), (2, 0x11)] })
        (fun s => (s.img, s.cursor, s.phase)) =
      some ([(0, 0x02), (1, 0x0B), (2, 0x11)], 2, .prefixPhase) := by decide

/-- R150: `LEN = 2`, `PAY[0] = A5`, `b = 34`: cell `(3, 2, 1)`, byte 34, gets bit 1; V20 has `F1` there. -/
theorem test_encode_payload_bit :
    look (step { busy .payloadPhase .encode 4 4 2 34 with img := [(34, 0xF0)], pay := [(0, 0xA5), (1, 0x3C)] })
        (fun s => (s.img, s.pay, s.cursor, s.phase)) =
      some ([(34, 0xF1)], [(0, 0xA5), (1, 0x3C)], 35, .payloadPhase) := by decide

/-- V1: with `NCH = 4` and `W = 2`, frame bit 7 is byte 9; the alpha byte 11 keeps its value (V22). -/
theorem test_encode_skips_alpha :
    look (step { busy .prefixPhase .encode 2 6 0 7 with
          params := { extraChannels := 1, imgBytes := some 48, payBytes := none },
          img := [(8, 0x91), (9, 0x93), (10, 0x95), (11, 0x97)] }) (fun s => s.img) =
      some [(8, 0x91), (9, 0x92), (10, 0x95), (11, 0x97)] := by decide

/-! ### DECODE: V35, V52, the example of 42_decoder.md R176, V32 and V34 at their deciding steps -/

theorem test_decode_image_too_small :
    look (exec .decode { idle 2 2 1 0 with len := 77, cursor := 5 })
        (fun s => (s.status, s.phase, s.len, s.cursor)) =
      some (.invalidLengthError, .idle, 77, 5) := by decide

theorem test_decode_accepts_33_bits :
    look (exec .decode (idle 11 1 1 0)) (fun s => (s.status, s.phase, s.op)) = some (.busy, .prefixPhase, 2) := by
  decide

theorem test_decode_prefix_bit :
    look (step { busy .prefixPhase .decode 5 3 0 0 with img := [(0, 0x01)] }) (fun s => (s.len, s.cursor)) =
      some (1, 1) := by decide

/-- V32: the comparison is not modulo `2^32`; `LEN` keeps the rejected length. -/
theorem test_decode_validates_exactly :
    look (step { busy .prefixPhase .decode 4 3 0x7FFFFFFF 31 with img := [(31, 0xFF)] })
        (fun s => (s.status, s.phase, s.len, s.cursor)) =
      some (.invalidLengthError, .idle, 4294967295, 32) := by decide

/-- V34, V13: the eighth bit stores `C3`; the bits before it are 1, 1, 0, 0, 0, 0, 1. -/
theorem test_decode_stores_the_byte :
    look (step { busy .payloadPhase .decode 5 3 1 39 with acc := 0x43, img := [(39, 0xFF)] })
        (fun s => (s.pay, s.acc, s.status, s.phase, s.cursor)) =
      some ([(0, 0xC3)], 0, .ok, .idle, 40) := by decide

/-! ### The host and the sequencer -/

/-- V53. -/
theorem test_reserved_opcode :
    look (step (withHost (idle 1 1 3 0) [.wr 0x0 3])) (fun s => (s.op, s.status, s.phase)) =
      some (3, .illegalCommand, .idle) := by decide

/-- 10_state.md R42: a write to `W` waits while busy, and the core takes its step. -/
theorem test_write_waits_while_busy :
    look (step (withHost (busy .prefixPhase .decode 5 3 0 0) [.wr 0x5 9])) (fun s => (s.w, s.cursor, s.host)) =
      some (5, 1, [.wr 0x5 9]) := by decide

/-- V55: `RD STATUS` after reset is `0x0`. -/
theorem test_status_after_reset :
    look (step (withHost State.reset [.rd 0x1])) (fun s => s.seen) = some [.reg 0x1 0] := by decide

/-- 93_implementation_defined.md U10: an access beyond `IMG_BYTES` is stuck. -/
theorem test_access_beyond_memory_faults :
    look (step (withHost { State.reset with params := { extraChannels := 0, imgBytes := some 48, payBytes := none } }
      [.imgWrite 47 [1, 2]])) (fun s => s.img) = none := by decide

/-- A memory keeps its canonical form: writing what an unlisted byte reads as removes the entry. -/
theorem test_memory_canonical :
    Memory.write [(1, 0x05), (3, 0x07)] 3 0x00 = [(1, 0x05)] ∧
      Memory.write [(1, 0x05), (3, 0x07)] 2 0x09 = [(1, 0x05), (2, 0x09), (3, 0x07)] := by decide

theorem test_placed_word_runs :
    look (step (State.reset.withFetchWord 8 2)) (fun s => (s.op, s.status)) = some (2, .imageLoadError) ∧
      look (step (State.reset.withFetchWord 8 0)) (fun s => (s.op, s.status)) = some (0, .ok) := by decide

/-- 70_reset_and_hazards.md R262: a reset inside a command leaves the memory the command does not write. -/
theorem test_reset_abandons :
    look (step (withHost { busy .payloadPhase .encode 4 4 2 34 with pay := [(0, 0xA5)] } [.reset]))
        (fun s => (s.status, s.op, s.cursor, s.pay)) = some (.none, 0, 0, [(0, 0xA5)]) := by decide

/-- 30_encoding.md R111: `WAIT` reads `PHASE`; in `PREFIX` (1) it goes on, in `IDLE` (0) it is over. -/
theorem test_wait_polls_phase :
    look (step (withHost (busy .prefixPhase .encode 4 4 2 0) [.wait, .rd 0x1])) (fun s => (s.seen, s.cursor)) =
        some ([.reg 0x2 1], 0) ∧
      look (step (withHost State.reset [.wait, .rd 0x1])) (fun s => (s.seen, s.host)) =
        some ([.reg 0x2 0], [.rd 0x1]) := by decide

/-! ### Witnesses: the hypotheses of each obligation, clause by clause, met together -/

/-- Addresses 0 to 47 exist in `IMG` and 0, 1 in `PAY`: the sizes 95_test_vectors.md gives for its programs. -/
def sized : Params := { extraChannels := 0, imgBytes := some 48, payBytes := some 2 }

/-- The same with `NCH = 4`. -/
def sized4 : Params := { extraChannels := 1, imgBytes := some 48, payBytes := some 2 }

theorem witness_DecodeAndEncodeAgree : Instr.decode.wf = true ∧ decode 0b10#2 = .command .decode := by decide

theorem witness_StatusCodesAreTheTable : ResultKind.illegalCommand.code = ResultKind.illegalCommand.code := rfl

theorem witness_FrameBitsAssembleBack : 4294967295 < 2 ^ 32 := by decide

theorem witness_CmdWriteWhileIdleRunsTheDecodedCommand :
    let s := withHost (idle 4 4 3 2) [.wr 0x0 1, .wait]
    s.phase = .idle ∧ s.host = .wr 0x0 1 :: [.wait] ∧ decode (commandWord 1) = .command .encode := by decide

theorem witness_ReservedOpcodeReportsIllegalCommand :
    let s := withHost (idle 4 4 3 2) [.wr 0x0 3]
    s.phase = .idle ∧ s.host = .wr 0x0 3 :: [] ∧ 3 % 4 = 3 := by decide

theorem witness_NoCommandExecutesWhileBusy : (busy .prefixPhase .encode 4 4 2 0).phase ≠ .idle := by decide

theorem witness_IdleBlockWithoutHostMoveStays : State.reset.phase = .idle ∧ State.reset.host = [] := by decide

theorem witness_SequencerHasNoStepWithoutARow :
    State.reset.phase = .idle ∧ ({ busy .prefixPhase .encode 4 4 2 0 with op := 0 } : State).op = 0 ∧
      ({ busy .payloadPhase .encode 4 4 2 32 with op := 3 } : State).op = 3 := by decide

theorem witness_PlacedTableWordRunsNext : decodeTableWord 8 0 = some .addr := by decide

theorem witness_AddrTranslatesTheBitIndex :
    (idle 1 0 0 0).phase = .idle ∧ 1 ≤ (idle 1 0 0 0).w.toNat ∧ (idle 0 0 0 0).w.toNat = 0 ∧
      (withHost (idle 1 0 0 0) [.wr 0x0 0]).host = .wr 0x0 0 :: [] := by decide

theorem witness_AddressFunctionHasTheInverse : 1 ≤ 5 ∧ addr 44 5 = some { x := 4, y := 2, c := 2 } := by decide

theorem witness_AddressFunctionHasTheSuccessorForm :
    1 ≤ 3 ∧ addr 7 3 = some { x := 2, y := 0, c := 1 } ∧ addr 5 3 = some { x := 1, y := 0, c := 2 } ∧
      addr 8 3 = some { x := 2, y := 0, c := 2 } ∧ 1 < 2 ∧ 1 < 3 - 1 ∧ 2 = 3 - 1 := by decide

theorem witness_FrameBitAddressesAreDense :
    addr 11 (idle 2 2 0 0).w.toNat = some { x := 1, y := 1, c := 2 } ∧ (idle 2 2 0 0).params.nch = 3 ∧
      ({ idle 2 2 0 0 with params := sized4 } : State).params.nch = 4 := by decide

theorem witness_AddressesOfCommandsAreInsideTheImage :
    1 ≤ 2 ∧ 11 < 2 * 2 * 3 ∧ addr 11 2 = some { x := 1, y := 1, c := 2 } := by decide

/-- The five branches of the start step of `ENCODE` (V41, V42, V43, one bit too many as V24, the boundary fit V20). -/
theorem witness_EncodeStartStepChecksInOrder :
    ((idle 0 0 2 4294967296).phase = .idle ∧ (idle 0 0 2 4294967296).imgOk = false) ∧
    ((idle 0 0 1 4294967296).imgOk = true ∧ (idle 0 0 1 4294967296).payOk = false) ∧
    ((idle 0 0 3 4294967296).imgOk = true ∧ (idle 0 0 3 4294967296).payOk = true ∧
      (idle 0 0 3 4294967296).plen.toNat > 2 ^ 32 - 1) ∧
    ((idle 13 1 3 1).imgOk = true ∧ (idle 13 1 3 1).payOk = true ∧ (idle 13 1 3 1).plen.toNat ≤ 2 ^ 32 - 1 ∧
      (idle 13 1 3 1).w.toNat * (idle 13 1 3 1).h.toNat * 3 < 32 + 8 * (idle 13 1 3 1).plen.toNat) ∧
    ((idle 4 4 3 2).imgOk = true ∧ (idle 4 4 3 2).payOk = true ∧ (idle 4 4 3 2).plen.toNat ≤ 2 ^ 32 - 1 ∧
      32 + 8 * (idle 4 4 3 2).plen.toNat ≤ (idle 4 4 3 2).w.toNat * (idle 4 4 3 2).h.toNat * 3) := by decide

theorem witness_DecodeStartStepChecksInOrder :
    ((idle 4 3 2 0).phase = .idle ∧ (idle 4 3 2 0).imgOk = false) ∧
    ((idle 10 1 1 0).imgOk = true ∧ (idle 10 1 1 0).w.toNat * (idle 10 1 1 0).h.toNat * 3 < 32) ∧
    ((idle 11 1 1 0).imgOk = true ∧ 32 ≤ (idle 11 1 1 0).w.toNat * (idle 11 1 1 0).h.toNat * 3) := by decide

theorem witness_EncodeCapacityBoundary :
    ((idle 4 4 3 2).phase = .idle ∧ (idle 4 4 3 2).imgOk = true ∧ (idle 4 4 3 2).payOk = true ∧
      (idle 4 4 3 2).plen.toNat ≤ 2 ^ 32 - 1 ∧
      32 + 8 * (idle 4 4 3 2).plen.toNat = (idle 4 4 3 2).w.toNat * (idle 4 4 3 2).h.toNat * 3) ∧
    ((idle 13 1 3 1).phase = .idle ∧ (idle 13 1 3 1).imgOk = true ∧ (idle 13 1 3 1).payOk = true ∧
      (idle 13 1 3 1).plen.toNat ≤ 2 ^ 32 - 1 ∧
      32 + 8 * (idle 13 1 3 1).plen.toNat = (idle 13 1 3 1).w.toNat * (idle 13 1 3 1).h.toNat * 3 + 1) := by decide

/-- The last cell of a 4 by 4 image in a memory that ends with it. -/
theorem witness_SetLsbReplacesOneBit :
    let s : State := { idle 4 4 0 0 with params := sized, img := [(47, 0x4C)] }
    let t : Triple := { x := 3, y := 3, c := 2 }
    s.img.wf = true ∧ t.x < s.w.toNat ∧ t.y < s.h.toNat ∧ t.c ≤ 2 ∧
      fits s.params.imgBytes (lin s { t with c := 0 }) s.params.nch = true := by decide

/-! The busy states below meet the invariant. -/

theorem encodePrefix_inv : ({ busy .prefixPhase .encode 4 4 2 0 with params := sized } : State).Inv := by
  constructor <;> constructor <;> decide

theorem encodePrefixLast_inv : ({ busy .prefixPhase .encode 4 4 2 31 with params := sized } : State).Inv := by
  constructor <;> constructor <;> decide

theorem encodeEmptyLast_inv : ({ busy .prefixPhase .encode 4 3 0 31 with params := sized } : State).Inv := by
  constructor <;> constructor <;> decide

theorem encodePayload_inv : ({ busy .payloadPhase .encode 4 4 2 32 with params := sized } : State).Inv := by
  constructor <;> constructor <;> decide

theorem encodePayloadLast_inv : ({ busy .payloadPhase .encode 4 4 2 47 with params := sized } : State).Inv := by
  constructor <;> constructor <;> decide

theorem decodePrefix_inv : ({ busy .prefixPhase .decode 4 4 1 30 with params := sized } : State).Inv := by
  constructor <;> constructor <;> decide

theorem decodePrefixTooLong_inv : ({ busy .prefixPhase .decode 4 4 3 31 with params := sized } : State).Inv := by
  constructor <;> constructor <;> decide

theorem decodePrefixEmpty_inv : ({ busy .prefixPhase .decode 4 4 0 31 with params := sized } : State).Inv := by
  constructor <;> constructor <;> decide

theorem decodePrefixFit_inv : ({ busy .prefixPhase .decode 4 4 2 31 with params := sized } : State).Inv := by
  constructor <;> constructor <;> decide

theorem decodePayload_inv :
    ({ busy .payloadPhase .decode 4 4 2 38 with params := sized, acc := 0x3F } : State).Inv := by
  constructor <;> constructor <;> decide

theorem decodePayloadByte_inv :
    ({ busy .payloadPhase .decode 4 4 2 39 with params := sized, acc := 0x7F } : State).Inv := by
  constructor <;> constructor <;> decide

theorem decodePayloadLast_inv :
    ({ busy .payloadPhase .decode 4 4 2 47 with params := sized, acc := 0x43 } : State).Inv := by
  constructor <;> constructor <;> decide

theorem witness_AddressesInside_busy :
    let s : State := { busy .prefixPhase .encode 4 4 2 0 with params := sized }
    s.Inv ∧ s.phase ≠ .idle ∧ hostWaits s.host = true := ⟨encodePrefix_inv, by decide, by decide⟩

theorem witness_EncodePrefixStepWritesALengthBit :
    let s (h len : BitVec 32) (c : BitVec 36) : State := { busy .prefixPhase .encode 4 h len c with params := sized }
    ((s 4 2 0).Inv ∧ (s 4 2 0).imgHeld ∧ hostWaits (s 4 2 0).host = true ∧ (s 4 2 0).cursor.toNat < 31) ∧
    ((s 3 0 31).Inv ∧ (s 3 0 31).imgHeld ∧ (s 3 0 31).cursor.toNat = 31 ∧ (s 3 0 31).len.toNat = 0) ∧
    ((s 4 2 31).Inv ∧ (s 4 2 31).imgHeld ∧ (s 4 2 31).cursor.toNat = 31 ∧ 1 ≤ (s 4 2 31).len.toNat) ∧
    ∀ h len c, (s h len c).phase = .prefixPhase ∧ (s h len c).op = 1 :=
  ⟨⟨encodePrefix_inv, by unfold State.imgHeld; decide, by decide, by decide⟩,
    ⟨encodeEmptyLast_inv, by unfold State.imgHeld; decide, by decide, by decide⟩,
    ⟨encodePrefixLast_inv, by unfold State.imgHeld; decide, by decide, by decide⟩, fun _ _ _ => ⟨rfl, rfl⟩⟩

theorem witness_EncodePayloadStepWritesAPayloadBit :
    let s (c : BitVec 36) : State := { busy .payloadPhase .encode 4 4 2 c with params := sized }
    ((s 32).Inv ∧ (s 32).imgHeld ∧ (s 32).payHeld 2 ∧ hostWaits (s 32).host = true ∧
      (s 32).cursor.toNat + 1 < 32 + 8 * (s 32).len.toNat) ∧
    ((s 47).Inv ∧ (s 47).imgHeld ∧ (s 47).payHeld 2 ∧ (s 47).cursor.toNat + 1 = 32 + 8 * (s 47).len.toNat) ∧
    ∀ c, (s c).phase = .payloadPhase ∧ (s c).op = 1 ∧ (s c).len.toNat = 2 :=
  ⟨⟨encodePayload_inv, by unfold State.imgHeld; decide, by unfold State.payHeld; decide, by decide, by decide⟩,
    ⟨encodePayloadLast_inv, by unfold State.imgHeld; decide, by unfold State.payHeld; decide, by decide⟩,
    fun _ => ⟨rfl, rfl, rfl⟩⟩

/-- The four outcomes of a `DECODE` prefix step: a bit before the last; at the last, a length one byte too long, the
empty payload, and the boundary fit of a 4 by 4 image. The step reads a 0 there, so the length is the one in `LEN`. -/
theorem witness_DecodePrefixStepReadsALengthBit :
    let s (l : BitVec 32) : State := { busy .prefixPhase .decode 4 4 l 31 with params := sized }
    let r : State := { busy .prefixPhase .decode 4 4 1 30 with params := sized }
    (r.Inv ∧ r.imgHeld ∧ hostWaits r.host = true ∧ r.cursor.toNat < 31 ∧ r.phase = .prefixPhase ∧ r.op = 2) ∧
    ((s 3).Inv ∧ (s 3).imgHeld ∧ (s 3).w.toNat * (s 3).h.toNat * 3 < 32 + 8 * (s 3).len.toNat) ∧
    ((s 0).Inv ∧ (s 0).imgHeld ∧ 32 + 8 * (s 0).len.toNat ≤ (s 0).w.toNat * (s 0).h.toNat * 3 ∧
      (s 0).len.toNat = 0) ∧
    ((s 2).Inv ∧ (s 2).imgHeld ∧ 32 + 8 * (s 2).len.toNat = (s 2).w.toNat * (s 2).h.toNat * 3 ∧
      1 ≤ (s 2).len.toNat) ∧
    ∀ l, (s l).cursor.toNat = 31 ∧ (s l).lsbAt 31 = false ∧ (s l).phase = .prefixPhase ∧ (s l).op = 2 := by
  refine ⟨⟨decodePrefix_inv, by unfold State.imgHeld; decide, by decide, by decide, by decide, by decide⟩,
    ⟨decodePrefixTooLong_inv, by unfold State.imgHeld; decide, by decide⟩,
    ⟨decodePrefixEmpty_inv, by unfold State.imgHeld; decide, by decide, by decide⟩,
    ⟨decodePrefixFit_inv, by unfold State.imgHeld; decide, by decide, by decide⟩,
    fun _ => ⟨rfl, by simp [State.lsbAt, Memory.read, busy, State.reset, blankByte, bitOf], rfl, rfl⟩⟩

theorem witness_DecodePayloadStepReadsAPayloadBit :
    let s (c : BitVec 36) (a : BitVec 8) : State :=
      { busy .payloadPhase .decode 4 4 2 c with params := sized, acc := a }
    ((s 38 0x3F).Inv ∧ (s 38 0x3F).imgHeld ∧ (s 38 0x3F).payHeld 2 ∧ hostWaits (s 38 0x3F).host = true ∧
      ((s 38 0x3F).cursor.toNat - 32) % 8 < 7) ∧
    ((s 39 0x7F).Inv ∧ ((s 39 0x7F).cursor.toNat - 32) % 8 = 7 ∧
      (s 39 0x7F).cursor.toNat + 1 < 32 + 8 * (s 39 0x7F).len.toNat) ∧
    ((s 47 0x43).Inv ∧ (s 47 0x43).cursor.toNat + 1 = 32 + 8 * (s 47 0x43).len.toNat) ∧
    ∀ c a, (s c a).phase = .payloadPhase ∧ (s c a).op = 2 ∧ (s c a).len.toNat = 2 :=
  ⟨⟨decodePayload_inv, by unfold State.imgHeld; decide,
      by unfold State.payHeld; decide, by decide, by decide⟩,
    ⟨decodePayloadByte_inv, by decide, by decide⟩,
    ⟨decodePayloadLast_inv, by decide⟩, fun _ _ => ⟨rfl, rfl, rfl⟩⟩

theorem witness_ResetMeetsTheInvariant :
    let s : State := { idle 7 9 3 5 with x := 3, len := 77, img := [(2, 0x10)], pay := [(0, 0xFF)] }
    s.AfterReset ∧ s.img.wf = true ∧ s.pay.wf = true := ⟨⟨rfl, rfl, rfl, rfl, rfl⟩, by decide, by decide⟩

theorem reset_inv : State.reset.Inv := by constructor <;> constructor <;> decide

/-- A busy block that takes a step, and an idle one that takes a host move. -/
theorem witness_EveryStepKeepsTheInvariant :
    let s : State := { busy .prefixPhase .encode 4 4 2 0 with params := sized }
    (s.Inv ∧ step s = .next { s with cursor := 1 }) ∧ State.reset.Inv ∧ step State.reset = .next State.reset :=
  ⟨⟨encodePrefix_inv, rfl⟩, reset_inv, rfl⟩

theorem witness_CommandInProgressNeverStops :
    let s : State := { busy .payloadPhase .decode 4 4 2 47 with params := sized, acc := 0x43 }
    s.Inv ∧ s.busyDuty ∧ s.phase ≠ .idle ∧ hostWaits s.host = true :=
  ⟨decodePayloadLast_inv,
    by unfold State.busyDuty State.imgHeld State.payHeld; decide, by decide, by decide⟩

/-- `step s` refuses with this reason. -/
def refuses (s : State) (f : Refusal) : Bool :=
  match step s with
  | .next _ => false
  | .fault _ => false
  | .refused g => decide (g = f)

/-- `step s` faults with this reason. -/
def faults (s : State) (f : Fault) : Bool :=
  match step s with
  | .next _ => false
  | .fault g => decide (g = f)
  | .refused _ => false

/-- A block whose memories are too small for its image. -/
def cramped (s : State) (l : List HostAction) : State :=
  { s with params := { extraChannels := 0, imgBytes := some 2, payBytes := some 0 }, host := l }

/-- Each stop is reached: `ADDR` with `W = 0`, and an access beyond each memory, by the core and by the host. -/
theorem witness_OnlyTheSpecsStopsAreReachable :
    refuses (cramped (idle 0 0 0 0) [.wr 0x0 0]) .addrWidthZero = true ∧
      faults (cramped (busy .prefixPhase .encode 4 4 2 0) []) (.imgOutOfRange 0) = true ∧
      faults (cramped State.reset [.imgWrite 1 [1, 2]]) (.imgOutOfRange 1) = true ∧
      faults (cramped State.reset [.imgRead 2 1]) (.imgOutOfRange 2) = true ∧
      faults (cramped State.reset [.payWrite 0 [1]]) (.payOutOfRange 0) = true ∧
      faults (cramped State.reset [.payRead 0 1]) (.payOutOfRange 0) = true := by decide

/-- The states of the stops meet the invariant. -/
theorem witness_OnlyTheSpecsStops_inv :
    (cramped (idle 0 0 0 0) [.wr 0x0 0]).Inv ∧ (cramped (busy .prefixPhase .encode 4 4 2 0) []).Inv ∧
      (cramped State.reset [.payRead 0 1]).Inv := by
  refine ⟨?_, ?_, ?_⟩ <;> constructor <;> constructor <;> decide

theorem witness_WidthsAreSufficient :
    let s : State := { busy .payloadPhase .decode 4 4 2 47 with params := sized, acc := 0x43 }
    1 ≤ s.w.toNat ∧ s.SeqInv ∧ s.phase = .payloadPhase ∧ 47 < s.w.toNat * s.h.toNat * 3 ∧
      addr 47 s.w.toNat = some { x := 3, y := 3, c := 2 } :=
  ⟨by decide, decodePayloadLast_inv.seq, by decide, by decide, by decide⟩

theorem witness_OnlyResetGivesStatusNone :
    let s : State := withHost (busy .prefixPhase .encode 4 4 2 0) [.reset]
    look (step s) (fun t => t.status) = some .none ∧ s.status ≠ .none := by decide

theorem witness_CoreNeverReportsOutputWriteError :
    let s : State := { State.reset with status := .outputWriteError }
    look (step s) (fun t => t.status) = some .outputWriteError := by decide

/-- The three ways of the operand registers: kept (a bit step, a start step, a write to `CMD` or to an `RO` index), written
at their own index while idle, lost at a reset. -/
theorem witness_OperandRegistersBelongToTheHost :
    look (step { busy .prefixPhase .encode 4 4 2 0 with params := sized }) (fun t => (t.w, t.plen)) = some (4, 0) ∧
      look (step (withHost (idle 4 4 3 2) [.wr 0x0 1])) (fun t => (t.env, t.w, t.h, t.plen)) = some (3, 4, 4, 2) ∧
      look (step (withHost (idle 4 4 3 2) [.wr 0x9 7])) (fun t => (t.env, t.w, t.h, t.plen)) = some (3, 4, 4, 2) ∧
      look (step (withHost State.reset [.wr 0x4 3])) (fun t => t.env) = some 3 ∧
      look (step (withHost State.reset [.wr 0x5 9])) (fun t => t.w) = some 9 ∧
      look (step (withHost State.reset [.wr 0x6 9])) (fun t => t.h) = some 9 ∧
      look (step (withHost State.reset [.wr 0x7 9])) (fun t => t.b) = some 9 ∧
      look (step (withHost State.reset [.wr 0x8 9])) (fun t => t.plen) = some 9 ∧
      look (step (withHost State.reset [.reset])) (fun t => t.phase) = some .idle := by decide

/-- `X` kept by a bit step, written by `ADDR`, lost at a reset. -/
theorem witness_AddrResultsAreWrittenOnlyByAddr :
    look (step { busy .prefixPhase .encode 4 4 2 0 with x := 6 }) (fun t => t.x) = some 6 ∧
      look (step (withHost { idle 4 4 0 0 with b := 34 } [.wr 0x0 0])) (fun t => t.x) = some 3 ∧
      look (step (withHost State.reset [.reset])) (fun t => t.phase) = some .idle := by decide

/-- `CURSOR` stays (a read), goes on by one (a bit step), starts at 0 (a start step; a reset). -/
theorem witness_CursorOnlyAdvancesByOne :
    let s : State := { busy .prefixPhase .encode 4 4 2 0 with params := sized }
    s.Inv ∧ look (step (withHost s [.rd 0xA])) (fun t => t.cursor) = some 0 ∧
      look (step s) (fun t => t.cursor) = some 1 ∧
      look (step (withHost { idle 4 4 3 2 with cursor := 5 } [.wr 0x0 1])) (fun t => t.cursor) = some 0 ∧
      look (step (withHost { State.reset with cursor := 5 } [.reset])) (fun t => t.cursor) = some 0 :=
  ⟨encodePrefix_inv, by decide, by decide, by decide, by decide⟩

/-- A start step; a payload step of `ENCODE` at the last bit, with the host waiting and with the marker `coreStep` before a
read; a prefix step of `DECODE`, and the payload step that stores its last byte. -/
theorem witness_CommandsReachOnlyTheirMemory :
    let e : State := { busy .payloadPhase .encode 4 4 2 47 with params := sized }
    let c : State := withHost e [.coreStep, .rd 0x2]
    let d : State := { busy .prefixPhase .decode 4 4 0 0 with params := sized }
    let f : State := { busy .payloadPhase .decode 4 4 2 47 with params := sized, img := [(47, 0x01)] }
    look (exec .encode (idle 4 4 3 2)) (fun t => t.status) = some .busy ∧
      (e.img.wf = true ∧ e.phase ≠ .idle ∧ hostWaits e.host = true ∧ e.op = 1 ∧
        look (step e) (fun t => t.status) = some .ok) ∧
      (c.img.wf = true ∧ c.phase ≠ .idle ∧ c.host = .coreStep :: [.rd 0x2] ∧ c.op = 1 ∧
        look (step c) (fun t => t.host) = some [.rd 0x2]) ∧
      (d.img.wf = true ∧ d.phase ≠ .idle ∧ hostWaits d.host = true ∧ d.op = 2 ∧
        look (step d) (fun t => t.cursor) = some 1) ∧
      (f.img.wf = true ∧ f.phase ≠ .idle ∧ hostWaits f.host = true ∧ f.op = 2 ∧
        look (step f) (fun t => t.pay) = some [(1, 0x80)]) := by decide

/-- Every form of waiting move, at a busy block. -/
theorem witness_HostMovesWaitWhileBusy :
    ∀ a ∈ [HostAction.wr 0x0 1, .wr 0x4 1, .wr 0x8 1, .imgWrite 0 [1], .payWrite 0 [1], .imgRead 0 1, .payRead 0 1],
      (withHost (busy .prefixPhase .decode 4 4 0 0) [a]).phase ≠ .idle ∧
        (withHost (busy .prefixPhase .decode 4 4 0 0) [a]).host = a :: [] := by decide

theorem witness_HostReadReturnsTheCurrentValue :
    let s (i : RegIndex) : State := withHost (busy .prefixPhase .decode 4 4 0 0) [.rd i]
    (s 0x1).host = .rd 0x1 :: [] ∧ (s 0xD).host = .rd 0xD :: [] := by decide

/-- Writes to the first and the last `RW` register while idle, and to the first and the last `RO` register while busy. -/
theorem witness_HostWriteStoresModuloTheWidth :
    (∀ i ∈ [(0x4 : RegIndex), 0x8], (withHost State.reset [.wr i 5]).phase = .idle ∧
      (withHost State.reset [.wr i 5]).host = .wr i 5 :: []) ∧
    (∀ i ∈ [(0x1 : RegIndex), 0xD], (withHost (busy .prefixPhase .decode 4 4 0 0) [.wr i 1]).host = .wr i 1 :: []) := by
  decide

theorem witness_HostReadsBackWhatItWrote :
    let s : State := { State.reset with params := sized, img := [(45, 0x09)] }
    let a : State := withHost s [.imgWrite 46 [0x11, 0x00], .imgRead 46 2]
    let b : State := withHost s [.payWrite 0 [0xA5, 0x3C], .payRead 0 2]
    (a.phase = .idle ∧ a.img.wf = true ∧ a.pay.wf = true ∧
      a.host = .imgWrite 46 [0x11, 0x00] :: .imgRead 46 [(0x11 : Byte), 0x00].length :: [] ∧
      fits a.params.imgBytes 46 2 = true) ∧
    (b.phase = .idle ∧ b.img.wf = true ∧ b.pay.wf = true ∧
      b.host = .payWrite 0 [0xA5, 0x3C] :: .payRead 0 [(0xA5 : Byte), 0x3C].length :: [] ∧
      fits b.params.payBytes 0 2 = true) := by decide

theorem witness_ResetAbandonsTheCommand :
    let s (i : Instr) : State := withHost (busy .prefixPhase i 4 4 2 0) [.reset]
    (s .encode).host = .reset :: [] ∧ (s .encode).phase ≠ .idle ∧ (s .encode).op = 1 ∧ (s .decode).op = 2 := by
  decide

/-- The boundary fit (V20) in memories that just hold it. -/
def boundaryFit (l : List HostAction) : State :=
  withHost { idle 4 4 3 2 with params := sized, pay := [(0, 0xA5), (1, 0x3C)] } l

theorem witness_EncodeReachesItsBigStepResult :
    let s := boundaryFit [.wr 0x0 1]
    s.img.wf = true ∧ s.phase = .idle ∧ s.host = .wr 0x0 1 :: [] ∧ decode (commandWord 1) = .command .encode ∧
      hostWaits [] = true ∧ s.encodeDuty ∧ 1 < encodeSteps s :=
  ⟨rfl, rfl, rfl, rfl, rfl, by unfold State.encodeDuty State.imgHeld State.payHeld; decide, by decide⟩

theorem witness_DecodeReachesItsBigStepResult :
    let s := boundaryFit [.wr 0x0 2]
    s.img.wf = true ∧ s.pay.wf = true ∧ s.phase = .idle ∧ s.host = .wr 0x0 2 :: [] ∧
      decode (commandWord 2) = .command .decode ∧ hostWaits [] = true ∧ s.decodeDuty ∧ 1 < decodeSteps s :=
  ⟨rfl, by decide, rfl, rfl, rfl, rfl, by unfold State.decodeDuty State.imgHeld State.payHeld; decide, by decide⟩

/-- The first command's hypotheses: two bytes, and (with `PLEN = 0`) none. -/
theorem boundaryFit_inv :
    (boundaryFit [.wr 0x0 1]).Inv ∧ ({ boundaryFit [.wr 0x0 1] with plen := 0 } : State).Inv := by
  constructor <;> constructor <;> constructor <;> decide

theorem witness_DecodeAfterEncodeReturnsThePayload :
    let s (n : BitVec 64) : State := { boundaryFit [.wr 0x0 1] with plen := n }
    (s 2).Inv ∧ (s 0).Inv ∧ decode (commandWord 1) = .command .encode ∧ hostWaits [] = true ∧
    ∀ n : BitVec 64, n = 2 ∨ n = 0 → (s n).phase = .idle ∧ (s n).host = .wr 0x0 1 :: [] ∧ (s n).env = 3 ∧
      (s n).plen.toNat ≤ 2 ^ 32 - 1 ∧ 32 + 8 * (s n).plen.toNat ≤ (s n).w.toNat * (s n).h.toNat * 3 ∧
      (s n).imgHeld ∧ (s n).payHeld (s n).plen.toNat := by
  refine ⟨boundaryFit_inv.1, boundaryFit_inv.2, rfl, rfl, ?_⟩
  rintro n (rfl | rfl)
  · exact ⟨rfl, rfl, rfl, by decide, by decide, by unfold State.imgHeld; decide, by unfold State.payHeld; decide⟩
  · exact ⟨rfl, rfl, rfl, by decide, by decide, by unfold State.imgHeld; decide, by unfold State.payHeld; decide⟩

/-- The second command's state: whatever canonical image the first one left, with another payload memory and the
dimensions it is read with. -/
def reader (m : Memory) (w h : BitVec 32) : State :=
  { idle w h 1 0 with params := sized, img := m, pay := [(0, 0xEE), (1, 0xEE)], len := 77, host := [.wr 0x0 2] }

theorem reader_inv (m : Memory) (w h : BitVec 32) (hm : m.wf = true) : (reader m w h).Inv := by
  have hi : (reader m w h).phase = .idle := rfl
  have hs : (reader m w h).status = .none := rfl
  have ha : (reader m w h).acc = 0 := rfl
  have hp : (reader m w h).pay.wf = true := rfl
  constructor <;> constructor <;> first | assumption | simp [hi, hs, ha]

theorem reader_imgOk (m : Memory) (w h : BitVec 32) : (reader m w h).imgOk = true := by
  show (1#2).getLsbD 0 = true
  decide

theorem reader_duty (m : Memory) :
    (reader m 4 4).decodeDuty ∧ (reader m 16 1).decodeDuty ∧ (reader m 4 3).decodeDuty := by
  refine ⟨fun _ => ⟨?_, fun _ => ?_⟩, fun _ => ⟨?_, fun _ => ?_⟩, fun _ => ⟨?_, fun _ => ?_⟩⟩
  · show fits (some 48) 0 (4 * 4 * 3) = true
    decide
  · show fits (some 2) 0 ((4 * 4 * 3 - 32) / 8) = true
    decide
  · show fits (some 48) 0 (16 * 1 * 3) = true
    decide
  · show fits (some 2) 0 ((16 * 1 * 3 - 32) / 8) = true
    decide
  · show fits (some 48) 0 (4 * 3 * 3) = true
    decide
  · show fits (some 2) 0 ((4 * 3 * 3 - 32) / 8) = true
    decide

theorem witness_DecodeAfterEncode_second (m : Memory) (hm : m.wf = true) :
    let u := reader m 4 4
    u.Inv ∧ u.phase = .idle ∧ u.img = m ∧ u.w = 4 ∧ u.h = 4 ∧ u.params = sized ∧ u.imgOk = true ∧ u.decodeDuty ∧
      u.host = .wr 0x0 2 :: [] ∧ decode (commandWord 2) = .command .decode ∧ hostWaits [] = true :=
  ⟨reader_inv m 4 4 hm, rfl, rfl, rfl, rfl, rfl, reader_imgOk m 4 4, (reader_duty m).1, rfl, rfl, rfl⟩

/-- Dimensions that hold the two bytes of the boundary fit (16 by 1), and some that do not (4 by 3). -/
theorem witness_DecodeWithOtherDimensions (m : Memory) (hm : m.wf = true) :
    ((reader m 16 1).Inv ∧ (reader m 16 1).decodeDuty ∧
      32 + 8 * 2 ≤ (reader m 16 1).w.toNat * (reader m 16 1).h.toNat * 3) ∧
    ((reader m 4 3).Inv ∧ (reader m 4 3).decodeDuty ∧
      (reader m 4 3).w.toNat * (reader m 4 3).h.toNat * 3 < 32 + 8 * 2) ∧
    ∀ w h, (reader m w h).phase = .idle ∧ (reader m w h).img = m ∧ (reader m w h).params = sized ∧
      (reader m w h).imgOk = true ∧ (reader m w h).host = .wr 0x0 2 :: [] :=
  ⟨⟨reader_inv m 16 1 hm, (reader_duty m).2.1, by show 32 + 8 * 2 ≤ 16 * 1 * 3; decide⟩,
    ⟨reader_inv m 4 3 hm, (reader_duty m).2.2, by show 4 * 3 * 3 < 32 + 8 * 2; decide⟩,
    fun w h => ⟨rfl, rfl, rfl, reader_imgOk m w h, rfl⟩⟩

/-- Two images with the same LSBs and other high bits (V36 has such a pair); the declared length is 1. -/
def oneByte (v : Byte) : Memory := [(0, v), (39, v)]

theorem witness_DecodeDependsOnlyOnLsbs :
    let s := reader (oneByte 0x01) 4 4
    s.Inv ∧ (oneByte 0x4B).wf = true ∧ s.phase = .idle ∧ s.host = .wr 0x0 2 :: [] ∧
    decode (commandWord 2) = .command .decode ∧ hostWaits [] = true ∧ s.decodeDuty ∧ s.declaredLength = 1 ∧
    (∀ i, i < 40 → ({ s with img := oneByte 0x4B } : State).lsbAt i = s.lsbAt i) ∧ decodeSteps s = 41 :=
  ⟨reader_inv _ _ _ (by decide), by decide, rfl, rfl, rfl, rfl, (reader_duty _).1, by decide, by decide, by decide⟩

theorem witness_EncodeTwiceIsEncodeOnce :
    let s := boundaryFit [.wr 0x0 1, .wr 0x0 1]
    s.Inv ∧ s.phase = .idle ∧ s.host = .wr 0x0 1 :: .wr 0x0 1 :: [] ∧ decode (commandWord 1) = .command .encode ∧
      hostWaits [] = true ∧ s.encodeDuty :=
  ⟨by constructor <;> constructor <;> decide, rfl, rfl, rfl, rfl, by unfold State.encodeDuty State.imgHeld State.payHeld; decide⟩

theorem witness_EveryCommandTerminates :
    let s : State := { busy .prefixPhase .encode 4 4 2 0 with params := sized }
    s.Inv ∧ s.busyDuty ∧ s.phase ≠ .idle ∧ hostWaits s.host = true :=
  ⟨encodePrefix_inv, by unfold State.busyDuty State.imgHeld State.payHeld; decide, by decide, by decide⟩

/-- Reads of the last bytes of both memories. -/
theorem witness_HostMemoryReadReturnsTheCurrentBytes :
    let s : State := { State.reset with params := sized, img := [(47, 0x09)], pay := [(1, 0x3C)] }
    let a : State := withHost s [.imgRead 46 2]
    let b : State := withHost s [.payRead 0 2]
    (a.phase = .idle ∧ a.host = .imgRead 46 2 :: [] ∧ fits a.params.imgBytes 46 2 = true ∧
      look (step a) (fun t => t.seen) = some [.img 46 [0x00, 0x09]]) ∧
    (b.phase = .idle ∧ b.host = .payRead 0 2 :: [] ∧ fits b.params.payBytes 0 2 = true ∧
      look (step b) (fun t => t.seen) = some [.pay 0 [0x00, 0x3C]]) := by decide

/-- `WAIT` at an idle block, and at a busy one in each phase. -/
theorem witness_WaitIsARepeatedReadOfPhase :
    let a : State := withHost State.reset [.wait]
    let b (p : Phase) : State := withHost (busy p .decode 4 4 1 32) [.wait]
    (a.host = .wait :: [] ∧ a.phase = .idle) ∧
      (b .prefixPhase).host = .wait :: [] ∧ (b .prefixPhase).phase ≠ .idle ∧ (b .payloadPhase).phase ≠ .idle := by decide

/-- A `WAIT` at the first and at the last bit of an `ENCODE`. -/
theorem witness_WaitEndsWhenTheCommandHasEnded :
    let s : State := withHost { busy .prefixPhase .encode 4 4 2 0 with params := sized } [.wait]
    let e : State := withHost { busy .payloadPhase .encode 4 4 2 47 with params := sized } [.wait]
    (s.Inv ∧ s.busyDuty ∧ s.phase ≠ .idle ∧ s.host = .wait :: []) ∧
      (e.Inv ∧ e.busyDuty ∧ e.phase ≠ .idle ∧ e.host = .wait :: []) := by
  refine ⟨⟨?_, ?_, by decide, rfl⟩, ⟨?_, ?_, by decide, rfl⟩⟩
  · constructor <;> constructor <;> decide
  · unfold State.busyDuty State.imgHeld State.payHeld; decide
  · constructor <;> constructor <;> decide
  · unfold State.busyDuty State.imgHeld State.payHeld; decide

end Sys2Proof.Tests
end

/-! # The state: what a step can do, and what every step keeps (10_state.md) -/

namespace Sys2Proof.Machine

/-! ### Busy and idle -/

theorem isBusy_of_idle {s : State} (h : s.phase = .idle) : s.isBusy = false := by simp [State.isBusy, h]

theorem isBusy_iff {s : State} : s.isBusy = true ↔ s.phase ≠ .idle := by
  cases hp : s.phase <;> simp [State.isBusy, hp]

theorem whenIdle_busy {s : State} (r : Res State) (h : s.phase ≠ .idle) :
    whenIdle s r = .refused .commandWhileBusy := by
  cases hp : s.phase with
  | idle => exact absurd hp h
  | prefixPhase | payloadPhase => simp [whenIdle, hp]

/-- A move that need not wait, or any move while idle, is taken now. -/
theorem step_of_taken {s : State} {a : HostAction} {rest : List HostAction} (h : s.host = a :: rest)
    (ht : a.waits = false ∨ s.phase = .idle) : step s = hostMove a (s.setHost rest) := by
  have hb : (a.waits && s.isBusy) = false := by
    rcases ht with hw | hp
    · rw [hw, Bool.false_and]
    · rw [isBusy_of_idle hp, Bool.and_false]
  rw [step_of_cons h, hb, if_neg Bool.false_ne_true]

/-! ### The host's register accesses -/

/-- The registers the host can write and read (10_state.md R21). -/
theorem Reg.of_access_rw {r : Reg} (h : r.access = .rw) :
    r = .env ∨ r = .w ∨ r = .h ∨ r = .b ∨ r = .plen := by
  cases r <;> simp [Reg.access] at h ⊢

theorem Reg.of_access_wo {r : Reg} (h : r.access = .wo) : r = .cmd := by
  cases r <;> simp [Reg.access] at h ⊢

/-- A register's index names it and no other does (30_encoding.md R95). -/
theorem Reg.ofIndex_eq_some {i : RegIndex} {r : Reg} : Reg.ofIndex i = some r ↔ i = r.index := by
  have h : ∀ i : RegIndex, Reg.ofIndex i = some r → i = r.index := by cases r <;> decide
  exact ⟨h i, by rintro rfl; cases r <;> rfl⟩

@[simp] theorem State.setHost_readReg (s : State) (l : List HostAction) (r : Reg) :
    (s.setHost l).readReg r = s.readReg r := by cases r <;> rfl

/-- The registers the host can only read ignore its writes (10_state.md R42). -/
theorem State.writeReg_ro (s : State) {r : Reg} (v : Nat) (h : r.access = .ro) : s.writeReg r v = s := by
  cases r <;> simp [Reg.access, State.writeReg] at h ⊢

/-- A host read of a register that holds a value hands it over, in any phase. -/
theorem step_readReg {s : State} {i : RegIndex} {rest : List HostAction} {r : Reg} {v : Nat}
    (h : s.host = .rd i :: rest) (hr : Reg.ofIndex i = some r) (hv : s.readReg r = some v) :
    step s = .next ((s.setHost rest).see (.reg i v)) := by
  rw [step_of_taken h (.inl rfl)]
  simp [hostMove, hostRead, hr, hv]

/-- A host write to `CMD` while idle is the start step of its word. -/
theorem step_writeCmd {s : State} {v : Nat} {rest : List HostAction} (hp : s.phase = .idle)
    (h : s.host = .wr 0x0 v :: rest) : step s = startCommand v (s.setHost rest) :=
  step_of_taken h (.inr hp)

theorem hostWrite_reg {i : RegIndex} {r : Reg} (v : Nat) (s : State) (hr : Reg.ofIndex i = some r) (hc : r ≠ .cmd) :
    hostWrite i v s = .next (s.writeReg r v) := by
  cases r <;> simp [hostWrite, hr] at hc ⊢

/-- A host write to an operand register while idle stores the value. -/
theorem step_writeReg {s : State} {i : RegIndex} {v : Nat} {rest : List HostAction} {r : Reg} (hp : s.phase = .idle)
    (h : s.host = .wr i v :: rest) (hr : Reg.ofIndex i = some r) (hc : r ≠ .cmd) :
    step s = .next ((s.setHost rest).writeReg r v) :=
  (step_of_taken h (.inr hp)).trans (hostWrite_reg v _ hr hc)

/-- A host write to a read-only register only takes the move off the list, in any phase. -/
theorem step_writeReg_ro {s : State} {i : RegIndex} {v : Nat} {rest : List HostAction} {r : Reg}
    (h : s.host = .wr i v :: rest) (hr : Reg.ofIndex i = some r) (ha : r.access = .ro) :
    step s = .next (s.setHost rest) := by
  have hw : (HostAction.wr i v).waits = false := by simp [HostAction.waits, writeWaits, hr, ha]
  have hc : r ≠ .cmd := by rintro rfl; cases ha
  rw [step_of_taken h (.inl hw), hostMove, hostWrite_reg v _ hr hc, State.writeReg_ro _ v ha]

/-! ### All that a step can do -/

/-- All a step can have done when it answers a next state, by whose move it was. -/
inductive StepCase (s t : State) : Prop where
  /-- The core's bit step, with the marker `coreStep` taken off the host's list or the list as it was. -/
  | core (l : List HostAction) (hb : s.phase ≠ .idle) (h : bitStep (s.setHost l) = .next t)
  /-- A read, a poll, an ignored write, or nothing at all. -/
  | quiet (l : List HostAction) (seen : List HostSeen) (d : Nat)
      (ht : t = { s with host := l, seen := seen, draws := d })
  | start (i : Instr) (v : Nat) (rest : List HostAction) (hp : s.phase = .idle) (hh : s.host = .wr 0x0 v :: rest)
      (hd : decode (commandWord v) = .command i) (h : exec i (s.setHost rest) = .next t)
  | illegal (v : Nat) (rest : List HostAction) (hp : s.phase = .idle) (hh : s.host = .wr 0x0 v :: rest)
      (ht : t = ((s.setHost rest).setOp 0b11).finish .illegalCommand)
  | operand (r : Reg) (v : Nat) (rest : List HostAction) (hp : s.phase = .idle) (ha : r.access = .rw)
      (hh : s.host = .wr r.index v :: rest) (ht : t = (s.setHost rest).writeReg r v)
  | imgWrite (a : Nat) (bytes : List Byte) (rest : List HostAction) (hp : s.phase = .idle)
      (hh : s.host = .imgWrite a bytes :: rest) (ht : t = (s.setHost rest).setImg (s.img.writeBytes a bytes))
  | payWrite (k : Nat) (bytes : List Byte) (rest : List HostAction) (hp : s.phase = .idle)
      (hh : s.host = .payWrite k bytes :: rest) (ht : t = (s.setHost rest).setPay (s.pay.writeBytes k bytes))
  | reset (rest : List HostAction) (hh : s.host = .reset :: rest) (ht : t = resetBlock (s.setHost rest))

/-- A register read changes at most what the host has seen and the count of free values. -/
theorem hostRead_quiet (i : RegIndex) (s : State) : ∃ v d, hostRead i s = { s with seen := v, draws := d } := by
  simp only [hostRead]
  split <;> exact ⟨_, _, rfl⟩

theorem hostPoll_quiet (s : State) : ∃ l v d, hostPoll s = { s with host := l, seen := v, draws := d } := by
  obtain ⟨v, d, h⟩ := hostRead_quiet Reg.phase.index s
  simp only [hostPoll, h]
  split <;> exact ⟨_, _, _, rfl⟩

/-- A host write that is taken is a start step, stores an operand, or is ignored. -/
theorem hostWrite_cases {s t : State} {i : RegIndex} {v : Nat} {rest : List HostAction}
    (hh : s.host = .wr i v :: rest) (hw : (HostAction.wr i v).waits = true → s.phase = .idle)
    (h : hostWrite i v (s.setHost rest) = .next t) : StepCase s t := by
  cases hr : Reg.ofIndex i with
  | none =>
    simp only [hostWrite, hr] at h
    exact .quiet rest s.seen s.draws (Host.Outcome.next.inj h).symm
  | some r =>
    obtain rfl := Reg.ofIndex_eq_some.1 hr
    simp only [HostAction.waits, writeWaits, hr] at hw
    cases ha : r.access with
    | ro =>
      have hc : r ≠ .cmd := by rintro rfl; cases ha
      rw [hostWrite_reg v _ hr hc, State.writeReg_ro _ v ha] at h
      exact .quiet rest s.seen s.draws (Host.Outcome.next.inj h).symm
    | rw =>
      have hc : r ≠ .cmd := by rintro rfl; cases ha
      rw [hostWrite_reg v _ hr hc] at h
      exact .operand r v rest (hw (by rw [ha])) ha hh (Host.Outcome.next.inj h).symm
    | wo =>
      obtain rfl := Reg.of_access_wo ha
      have hp : s.phase = .idle := hw rfl
      have h : startCommand v (s.setHost rest) = .next t := h
      cases hd : decode (commandWord v) with
      | command j =>
        simp only [startCommand, hd] at h
        exact .start j v rest hp hh hd h
      | reservedOpcode =>
        simp only [startCommand, hd] at h
        exact .illegal v rest hp hh (Host.Outcome.next.inj (whenIdle_next h).2).symm

/-- The inversion lemma of `step`. -/
theorem stepCase_of_step {s t : State} (h : step s = .next t) : StepCase s t := by
  rcases step_cases h with ⟨hb, -, h⟩ | ⟨-, -, rfl⟩ | ⟨a, rest, hh, hw, h⟩
  · exact .core s.host hb h
  · exact .quiet t.host t.seen t.draws rfl
  cases a with
  | wr i v => exact hostWrite_cases hh hw h
  | rd i =>
    obtain ⟨v, d, hv⟩ := hostRead_quiet i (s.setHost rest)
    exact .quiet rest v d ((Host.Outcome.next.inj h).symm.trans hv)
  | imgWrite a bytes =>
    simp only [hostMove, storeImgBytes] at h
    split_ifs at h
    exact .imgWrite a bytes rest (hw rfl) hh (Host.Outcome.next.inj h).symm
  | payWrite k bytes =>
    simp only [hostMove, storePayBytes] at h
    split_ifs at h
    exact .payWrite k bytes rest (hw rfl) hh (Host.Outcome.next.inj h).symm
  | imgRead a n =>
    obtain ⟨bytes, -, h⟩ := andThen_eq_next.1 h
    exact .quiet rest _ s.draws (Host.Outcome.next.inj h).symm
  | payRead k n =>
    obtain ⟨bytes, -, h⟩ := andThen_eq_next.1 h
    exact .quiet rest _ s.draws (Host.Outcome.next.inj h).symm
  | wait =>
    obtain ⟨l, v, d, hv⟩ := hostPoll_quiet (s.setHost rest)
    exact .quiet l v d ((Host.Outcome.next.inj h).symm.trans hv)
  | coreStep =>
    simp only [hostMove] at h
    split_ifs at h with hb
    · exact .core rest (isBusy_iff.1 hb) h
    · exact .quiet rest s.seen s.draws (Host.Outcome.next.inj h).symm
  | reset => exact .reset rest hh (Host.Outcome.next.inj h).symm

/-! ### The invariant, phase by phase -/

/-- The invariant of a block with no command in progress. -/
structure State.IdleInv (s : State) : Prop where
  phase : s.phase = .idle
  status : s.status ≠ .busy
  acc : s.acc = 0
  imgWf : s.img.wf = true
  payWf : s.pay.wf = true

/-- The invariant of a command in its first 32 frame bits. -/
structure State.PrefixInv (s : State) : Prop where
  phase : s.phase = .prefixPhase
  status : s.status = .busy
  op : s.op = encode .encode ∨ s.op = encode .decode
  cursor : s.cursor.toNat ≤ 31
  frameFits : s.op = encode .encode → 32 + 8 * s.len.toNat ≤ s.w.toNat * s.h.toNat * 3
  prefixFits : 32 ≤ s.w.toNat * s.h.toNat * 3
  partialLength : s.op = encode .decode → s.len.toNat < 2 ^ s.cursor.toNat
  acc : s.acc = 0
  imgWf : s.img.wf = true
  payWf : s.pay.wf = true

/-- The invariant of a command in its payload bits. -/
structure State.PayloadInv (s : State) : Prop where
  phase : s.phase = .payloadPhase
  status : s.status = .busy
  op : s.op = encode .encode ∨ s.op = encode .decode
  len : 1 ≤ s.len.toNat
  cursorGe : 32 ≤ s.cursor.toNat
  cursorLt : s.cursor.toNat < 32 + 8 * s.len.toNat
  frameFits : 32 + 8 * s.len.toNat ≤ s.w.toNat * s.h.toNat * 3
  partialByte : s.op = encode .decode → s.acc.toNat < 2 ^ ((s.cursor.toNat - 32) % 8)
  accClear : s.op = encode .encode → s.acc = 0
  imgWf : s.img.wf = true
  payWf : s.pay.wf = true

theorem State.IdleInv.inv {s : State} (h : s.IdleInv) : s.Inv := by
  obtain ⟨hp, hs, ha, hi, hpy⟩ := h
  constructor <;> constructor <;> simp [hp, hs, ha, hi, hpy]

theorem State.PrefixInv.inv {s : State} (h : s.PrefixInv) : s.Inv := by
  obtain ⟨hp, hs, ho, hc, hf, hpf, hl, ha, hi, hpy⟩ := h
  refine ⟨⟨by simp [hs, hp], fun _ => ho, fun _ => hc, by simp [hp], fun _ he => hf (by simpa [hp] using he),
    fun _ => hpf, fun _ => by omega⟩, ⟨hi, hpy, fun _ => hl, by simp [hp], fun _ => ha⟩⟩

theorem State.PayloadInv.inv {s : State} (h : s.PayloadInv) : s.Inv := by
  obtain ⟨hp, hs, ho, h1, h2, h3, hf, hl, ha, hi, hpy⟩ := h
  refine ⟨⟨by simp [hs, hp], fun _ => ho, by simp [hp], fun _ => ⟨h1, h2, h3⟩, fun _ _ => hf, fun _ => by omega,
    fun _ => by omega⟩, ⟨hi, hpy, by simp [hp], fun _ => hl, fun h => ?_⟩⟩
  exact ha (ho.resolve_right fun hd => h ⟨hp, hd⟩)

theorem State.Inv.idle {s : State} (h : s.Inv) (hp : s.phase = .idle) : s.IdleInv where
  phase := hp
  status hb := h.seq.busyIff.1 hb hp
  acc := h.data.accClear (by simp [hp])
  imgWf := h.data.imgWf
  payWf := h.data.payWf

theorem State.Inv.prefixPhase {s : State} (h : s.Inv) (hp : s.phase = .prefixPhase) : s.PrefixInv :=
  have hb : s.phase ≠ .idle := by simp [hp]
  { phase := hp
    status := h.seq.busyIff.2 hb
    op := h.seq.busyOp hb
    cursor := h.seq.prefixCursor hp
    frameFits := fun ho => h.seq.frameFits hb (.inl ho)
    prefixFits := h.seq.prefixFits hb
    partialLength := h.data.partialLength hp
    acc := h.data.accClear (by simp [hp])
    imgWf := h.data.imgWf
    payWf := h.data.payWf }

theorem State.Inv.payloadPhase {s : State} (h : s.Inv) (hp : s.phase = .payloadPhase) : s.PayloadInv :=
  have hb : s.phase ≠ .idle := by simp [hp]
  have ⟨hl, hge, hlt⟩ := h.seq.payloadCursor hp
  { phase := hp
    status := h.seq.busyIff.2 hb
    op := h.seq.busyOp hb
    len := hl
    cursorGe := hge
    cursorLt := hlt
    frameFits := h.seq.frameFits hb (.inr hp)
    partialByte := h.data.partialByte hp
    accClear := fun ho => h.data.accClear (by simp [ho, encode])
    imgWf := h.data.imgWf
    payWf := h.data.payWf }

/-- The invariant says nothing of the host's list, of what the host saw, or of the count of free values. -/
theorem State.Inv.of_other_host {s : State} (h : s.Inv) (l : List HostAction) (v : List HostSeen) (d : Nat) :
    ({ s with host := l, seen := v, draws := d } : State).Inv :=
  ⟨{ h.seq with }, { h.data with }⟩

/-- The cursor of a command in progress can move on without leaving its register (10_state.md R52). -/
theorem State.SeqInv.cursor_succ_lt {s : State} (h : s.SeqInv) (hb : s.phase ≠ .idle) :
    s.cursor.toNat + 1 < 2 ^ 36 := by
  have hl := s.len.isLt
  cases hp : s.phase with
  | idle => exact absurd hp hb
  | prefixPhase => have := h.prefixCursor hp; omega
  | payloadPhase => obtain ⟨-, -, hc⟩ := h.payloadCursor hp; omega

theorem State.SeqInv.toNat_setCursor_succ {s : State} (h : s.SeqInv) (hb : s.phase ≠ .idle) :
    (BitVec.ofNat 36 (s.cursor.toNat + 1)).toNat = s.cursor.toNat + 1 :=
  toNat_cursor_succ (h.cursor_succ_lt hb)

/-! ### The bit steps keep the invariant -/

theorem op_ne_decode {o : Opcode} (h : o = encode .encode) : o ≠ encode .decode := by subst h; decide

theorem op_ne_encode {o : Opcode} (h : o = encode .decode) : o ≠ encode .encode := by subst h; decide

/-- A value whose bits from `b` up are clear has them clear from `b + 1` up with bit `b` set. -/
theorem toNat_or_bitAt_lt {w b : Nat} (v : BitVec w) (bit : Bool) (hv : v.toNat < 2 ^ b) (hb : b < w) :
    (v ||| bitAt w bit b).toNat < 2 ^ (b + 1) := by
  rw [toNat_or_bitAt v bit hv hb, pow_succ]
  split_ifs <;> omega

theorem State.imgWith_wf {s : State} (b : Nat) (bit : Bool) (h : s.img.wf = true) : (s.imgWith b bit).wf = true :=
  Memory.wf_write _ _ h

theorem encodePrefixNext_inv {s : State} (h : s.Inv) (hp : s.phase = .prefixPhase) (ho : s.op = encode .encode) :
    (encodePrefixNext s).Inv := by
  have hi := h.prefixPhase hp
  have hcur := h.seq.toNat_setCursor_succ (by simp [hp])
  have hm := State.imgWith_wf s.cursor.toNat (bitOf s.len s.cursor.toNat) hi.imgWf
  have hc := hi.cursor
  simp only [encodePrefixNext]
  split_ifs with h31 h0
  · exact State.IdleInv.inv ⟨rfl, by simp [done], hi.acc, hm, hi.payWf⟩
  · exact State.PayloadInv.inv
      { phase := rfl, status := hi.status, op := hi.op, len := Nat.pos_of_ne_zero h0, frameFits := hi.frameFits ho
        cursorGe := hcur.ge.trans' (by omega), cursorLt := hcur.trans_lt (by show _ < 32 + 8 * s.len.toNat; omega)
        partialByte := fun hd => absurd hd (op_ne_decode ho), accClear := fun _ => hi.acc
        imgWf := hm, payWf := hi.payWf }
  · exact State.PrefixInv.inv
      { hi with
        cursor := hcur.trans_le (by omega), imgWf := hm
        partialLength := fun hd => absurd hd (op_ne_decode ho) }

theorem encodePayloadNext_inv {s : State} (h : s.Inv) (hp : s.phase = .payloadPhase) (ho : s.op = encode .encode) :
    (encodePayloadNext s).Inv := by
  have hi := h.payloadPhase hp
  have hcur := h.seq.toNat_setCursor_succ (by simp [hp])
  have hge := hi.cursorGe
  have hlt := hi.cursorLt
  simp only [encodePayloadNext, frameBitLength, prefixBits]
  split_ifs with hend
  · exact State.IdleInv.inv ⟨rfl, by simp [done], hi.accClear ho, State.imgWith_wf _ _ hi.imgWf, hi.payWf⟩
  · exact State.PayloadInv.inv
      { hi with
        cursorGe := hcur.ge.trans' (by omega), cursorLt := hcur.trans_lt (by show _ < 32 + 8 * s.len.toNat; omega)
        imgWf := State.imgWith_wf _ _ hi.imgWf
        partialByte := fun hd => absurd hd (op_ne_decode ho) }

/-- The validation of a completed length ends the command or enters the payload phase (42_decoder.md R177). -/
theorem validateLength_inv {s : State} (hs : s.status = .busy) (ho : s.op = encode .decode) (hc : s.cursor.toNat = 32)
    (ha : s.acc = 0) (hi : s.img.wf = true) (hpy : s.pay.wf = true) : (validateLength s).Inv := by
  simp only [validateLength, frameBitLength, prefixBits, State.capacityBits, usedChannels]
  split_ifs with hbig h0
  · exact State.IdleInv.inv ⟨rfl, by simp [raise], ha, hi, hpy⟩
  · exact State.IdleInv.inv ⟨rfl, by simp [done], ha, hi, hpy⟩
  · exact State.PayloadInv.inv
      { phase := rfl, status := hs, op := .inr ho, len := Nat.pos_of_ne_zero h0, frameFits := Nat.le_of_not_lt hbig
        cursorGe := hc.ge, cursorLt := hc.trans_lt (by show 32 < 32 + 8 * s.len.toNat; omega)
        partialByte := fun _ => Nat.two_pow_pos _, accClear := fun _ => rfl, imgWf := hi, payWf := hpy }

theorem decodePrefixNext_inv {s : State} (h : s.Inv) (hp : s.phase = .prefixPhase) (ho : s.op = encode .decode) :
    (decodePrefixNext s).Inv := by
  have hi := h.prefixPhase hp
  have hcur := h.seq.toNat_setCursor_succ (by simp [hp])
  have hc := hi.cursor
  simp only [decodePrefixNext]
  split_ifs with h31
  · exact validateLength_inv hi.status ho (hcur.trans (by omega)) hi.acc hi.imgWf hi.payWf
  · have hlen := toNat_or_bitAt_lt s.len (s.lsbAt s.cursor.toNat) (hi.partialLength ho) (by omega)
    rw [← hcur] at hlen
    exact State.PrefixInv.inv
      { hi with
        cursor := hcur.trans_le (by omega), partialLength := fun _ => hlen
        frameFits := fun he => absurd he (op_ne_encode ho) }

/-- The end of a `DECODE` payload step keeps the invariant when `ACC` holds only the bits read of the next byte. -/
theorem decodePayloadAdvance_inv {s : State} (h : s.Inv) (hp : s.phase = .payloadPhase) (ho : s.op = encode .decode)
    {p : Memory} {v : Byte} (hpy : p.wf = true) (hv : v.toNat < 2 ^ ((s.cursor.toNat + 1 - 32) % 8)) :
    (decodePayloadAdvance s.cursor.toNat ((s.setPay p).setAcc v)).Inv := by
  have hi := h.payloadPhase hp
  have hcur := h.seq.toNat_setCursor_succ (by simp [hp])
  have hge := hi.cursorGe
  have hlt := hi.cursorLt
  by_cases hend : s.cursor.toNat + 1 = 32 + 8 * s.len.toNat
  · have hacc : v = 0#8 := by
      have hmod : (s.cursor.toNat + 1 - 32) % 8 = 0 := by omega
      rw [hmod] at hv
      exact BitVec.eq_of_toNat_eq (Nat.lt_one_iff.1 hv)
    rw [decodePayloadAdvance_last (s := (s.setPay p).setAcc v) hend]
    exact State.IdleInv.inv ⟨rfl, by simp, hacc, hi.imgWf, hpy⟩
  · rw [← hcur] at hv
    rw [decodePayloadAdvance_more (s := (s.setPay p).setAcc v) hend]
    exact State.PayloadInv.inv
      { hi with
        cursorGe := hcur.ge.trans' (by omega), cursorLt := hcur.trans_lt (by show _ < 32 + 8 * s.len.toNat; omega)
        partialByte := fun _ => hv, accClear := fun he => absurd he (op_ne_encode ho), payWf := hpy }

theorem decodePayloadNext_inv {s : State} (h : s.Inv) (hp : s.phase = .payloadPhase) (ho : s.op = encode .decode) :
    (decodePayloadNext s).Inv := by
  have hi := h.payloadPhase hp
  have hge := hi.cursorGe
  simp only [decodePayloadNext]
  split_ifs with hj
  · have hacc := toNat_or_bitAt_lt s.acc (s.lsbAt s.cursor.toNat) (hi.partialByte ho) (by omega)
    have hmod : (s.cursor.toNat - 32) % 8 + 1 = (s.cursor.toNat + 1 - 32) % 8 := by omega
    exact decodePayloadAdvance_inv h hp ho hi.payWf (hmod ▸ hacc)
  · exact decodePayloadAdvance_inv h hp ho (Memory.wf_write _ _ hi.payWf) (Nat.two_pow_pos _)

theorem bitStep_inv {s t : State} (h : s.Inv) (hs : bitStep s = .next t) : t.Inv := by
  cases bitStep_cases h.data.imgWf hs with
  | encodePrefix hp ho hc hb ht => exact ht ▸ encodePrefixNext_inv h hp ho
  | decodePrefix hp ho hc hb ht => exact ht ▸ decodePrefixNext_inv h hp ho
  | encodePayload hp ho hc hl hb ht => exact ht ▸ encodePayloadNext_inv h hp ho
  | decodePayload hp ho hc hl hb ht => exact ht ▸ decodePayloadNext_inv h hp ho

/-! ### The start steps keep the invariant -/

theorem execAddr_inv {s t : State} (h : s.IdleInv) (hp : s.phase = .idle) (hs : execAddr s = .next t) : t.Inv := by
  rw [execAddr_idle hp] at hs
  split_ifs at hs
  cases hs
  exact State.IdleInv.inv ⟨rfl, by simp, h.acc, h.imgWf, h.payWf⟩

theorem execEncode_inv {s t : State} (h : s.IdleInv) (hp : s.phase = .idle) (hs : execEncode s = .next t) :
    t.Inv := by
  rw [execEncode_idle hp] at hs
  cases hc : encodeCheck s with
  | some k =>
    simp only [hc] at hs
    cases hs
    obtain ⟨-, hk, -, -⟩ := encodeCheck_ne_busy hc
    exact State.IdleInv.inv ⟨rfl, hk, h.acc, h.imgWf, h.payWf⟩
  | none =>
    simp only [hc] at hs
    cases hs
    obtain ⟨-, -, hl, hf⟩ := encodeCheck_none.1 hc
    have hlen : (s.plen.setWidth 32).toNat = s.plen.toNat := by
      rw [BitVec.toNat_setWidth, Nat.mod_eq_of_lt (by omega)]
    have hframe : 32 + 8 * (s.plen.setWidth 32).toNat ≤ s.w.toNat * s.h.toNat * 3 := by rwa [hlen]
    exact State.PrefixInv.inv
      { phase := rfl, status := rfl, op := .inl rfl, cursor := Nat.zero_le _, frameFits := fun _ => hframe
        prefixFits := by show 32 ≤ s.w.toNat * s.h.toNat * 3; omega
        partialLength := fun hd => absurd hd (op_ne_decode rfl)
        acc := h.acc, imgWf := h.imgWf, payWf := h.payWf }

theorem execDecode_inv {s t : State} (h : s.IdleInv) (hp : s.phase = .idle) (hs : execDecode s = .next t) :
    t.Inv := by
  rw [execDecode_idle hp] at hs
  cases hc : decodeCheck s with
  | some k =>
    simp only [hc] at hs
    cases hs
    obtain ⟨-, hk, -, -⟩ := decodeCheck_ne_busy hc
    exact State.IdleInv.inv ⟨rfl, hk, h.acc, h.imgWf, h.payWf⟩
  | none =>
    simp only [hc] at hs
    cases hs
    obtain ⟨-, hf⟩ := decodeCheck_none.1 hc
    exact State.PrefixInv.inv
      { phase := rfl, status := rfl, op := .inr rfl, cursor := Nat.zero_le _, prefixFits := hf
        frameFits := fun he => absurd he (op_ne_encode rfl)
        partialLength := fun _ => Nat.one_pos
        acc := rfl, imgWf := h.imgWf, payWf := h.payWf }

theorem exec_inv {i : Instr} {s t : State} (h : s.Inv) (hs : exec i s = .next t) : t.Inv := by
  obtain ⟨hp, -⟩ := exec_frame hs
  have hi := h.idle hp
  cases i with
  | addr => exact execAddr_inv hi hp hs
  | encode => exact execEncode_inv hi hp hs
  | decode => exact execDecode_inv hi hp hs

/-! ### The host's moves keep the invariant -/

/-- A host write to a register touches nothing the invariant of an idle block speaks of. -/
theorem State.writeReg_inv {s : State} (h : s.Inv) (hp : s.phase = .idle) (r : Reg) (v : Nat) :
    (s.writeReg r v).Inv := by
  obtain ⟨-, hs, ha, hi, hpy⟩ := h.idle hp
  cases r <;> exact State.IdleInv.inv ⟨hp, hs, ha, hi, hpy⟩

theorem resetMemory_wf {s : State} (size : Option Nat) {m : Memory} (n : Nat) (h : m.wf = true) :
    (resetMemory s size m n).wf = true := by
  simp only [resetMemory]
  split
  · exact Memory.wf_ofCells _ _
  · exact h
  · exact h

theorem resetBlock_inv {s : State} (h : s.Inv) : (resetBlock s).Inv :=
  State.IdleInv.inv
    ⟨rfl, by simp [resetBlock], rfl, resetMemory_wf _ _ h.data.imgWf, resetMemory_wf _ _ h.data.payWf⟩

/-- Settles O25: by the inversion of `step`, each kind of move keeps the invariant. -/
theorem everyStepKeepsTheInvariant : Obligations.EveryStepKeepsTheInvariant := by
  intro s t h hs
  have hmoved (l : List HostAction) : (s.setHost l).Inv := h.of_other_host l s.seen s.draws
  cases stepCase_of_step hs with
  | core l hb hc => exact bitStep_inv (hmoved l) hc
  | quiet l v d ht => exact ht ▸ h.of_other_host l v d
  | start i v rest hp hh hd he => exact exec_inv (hmoved rest) he
  | illegal v rest hp hh ht =>
    obtain ⟨-, -, ha, hi, hpy⟩ := h.idle hp
    exact ht ▸ State.IdleInv.inv ⟨rfl, by simp, ha, hi, hpy⟩
  | operand r v rest hp ha hh ht => exact ht ▸ State.writeReg_inv (hmoved rest) hp r v
  | imgWrite a bytes rest hp hh ht =>
    obtain ⟨-, hst, ha, hi, hpy⟩ := h.idle hp
    exact ht ▸ State.IdleInv.inv ⟨hp, hst, ha, Memory.wf_writeBytes _ _ hi, hpy⟩
  | payWrite k bytes rest hp hh ht =>
    obtain ⟨-, hst, ha, hi, hpy⟩ := h.idle hp
    exact ht ▸ State.IdleInv.inv ⟨hp, hst, ha, hi, Memory.wf_writeBytes _ _ hpy⟩
  | reset rest hh ht => exact ht ▸ resetBlock_inv (hmoved rest)

/-- Settles O24: both are idle states, whose invariant asks for no more than reset gives. -/
theorem resetMeetsTheInvariant : Obligations.ResetMeetsTheInvariant := by
  refine ⟨State.IdleInv.inv ⟨rfl, by decide, rfl, rfl, rfl⟩, fun s h hi hpy => ?_⟩
  exact State.IdleInv.inv ⟨h.phase, by simp [h.status], h.acc, hi, hpy⟩

/-- Settles O40. -/
theorem resetStateHoldsTheSpecsValues : Obligations.ResetStateHoldsTheSpecsValues :=
  ⟨rfl, rfl, rfl, rfl, rfl, rfl, rfl⟩

/-! ### Widths -/

/-- The capacity of the largest image (10_state.md R52). -/
theorem State.capacity_le (s : State) : s.w.toNat * s.h.toNat * 3 ≤ (2 ^ 32 - 1) * (2 ^ 32 - 1) * 3 :=
  Nat.mul_le_mul_right 3 (Nat.mul_le_mul (Nat.le_sub_one_of_lt s.w.isLt) (Nat.le_sub_one_of_lt s.h.isLt))

/-- The linear address of a frame bit below the capacity lies inside `W * H * NCH`. -/
theorem lin_lt_of_addr {s : State} {b : Nat} {t : Triple} (hb : b < s.w.toNat * s.h.toNat * 3)
    (ht : addr b s.w.toNat = some t) : lin s t < s.w.toNat * s.h.toNat * s.params.nch := by
  rw [addr_pos b (width_pos_of_lt hb)] at ht
  obtain rfl := Option.some.inj ht
  have hpix := pixel_inside (n := s.params.nch) hb
  have hch : b % 3 < s.params.nch := by simp only [Params.nch]; omega
  rw [lin_addr, cellAddress]
  omega

/-- Settles O28: the registers bound every expression; the cursor's bounds are those of the invariant. -/
theorem widthsAreSufficient : Obligations.WidthsAreSufficient := by
  intro s
  have hw := s.w.isLt
  have hh := s.h.isLt
  have hplen := s.plen.isLt
  have hlen := s.len.isLt
  have hb := s.b.isLt
  have hrow : s.b.toNat / 3 / s.w.toNat ≤ s.b.toNat / 3 := Nat.div_le_self _ _
  refine ⟨by omega, by omega, by omega, s.capacity_le, by decide, by omega, by decide, by omega, by omega,
    fun h => Nat.mod_lt _ h, by omega, fun h hp => h.cursor_succ_lt hp, fun h hp => ?_, fun b t => lin_lt_of_addr⟩
  obtain ⟨hl, hge, hlt⟩ := h.payloadCursor hp
  omega

/-! ### Who writes which register -/

/-- Settles O31: only a write to its own index or a reset reaches an operand register. -/
theorem operandRegistersBelongToTheHost : Obligations.OperandRegistersBelongToTheHost := by
  intro s t hs
  cases stepCase_of_step hs with
  | core l hb h =>
    obtain ⟨hw, hh, he, hpl, hbi, -, -, -, hpa, -, -⟩ := (bitStep_frame h).kept
    exact ⟨hpa, .inr ⟨.inl he, .inl hw, .inl hh, .inl hbi, .inl hpl⟩⟩
  | start i v rest hp hh hd h =>
    obtain ⟨-, he, hw, hhe, hbi, hpl, hpa, -⟩ := exec_frame h
    exact ⟨hpa, .inr ⟨.inl he, .inl hw, .inl hhe, .inl hbi, .inl hpl⟩⟩
  | operand r v rest hp ha hh ht =>
    subst ht
    have own : s.phase = .idle ∧ ∃ v rest, s.host = .wr r.index v :: rest := ⟨hp, v, rest, hh⟩
    rcases Reg.of_access_rw ha with rfl | rfl | rfl | rfl | rfl
    · exact ⟨rfl, .inr ⟨.inr own, .inl rfl, .inl rfl, .inl rfl, .inl rfl⟩⟩
    · exact ⟨rfl, .inr ⟨.inl rfl, .inr own, .inl rfl, .inl rfl, .inl rfl⟩⟩
    · exact ⟨rfl, .inr ⟨.inl rfl, .inl rfl, .inr own, .inl rfl, .inl rfl⟩⟩
    · exact ⟨rfl, .inr ⟨.inl rfl, .inl rfl, .inl rfl, .inr own, .inl rfl⟩⟩
    · exact ⟨rfl, .inr ⟨.inl rfl, .inl rfl, .inl rfl, .inl rfl, .inr own⟩⟩
  | reset rest hh ht => exact ⟨ht ▸ rfl, .inl ⟨rest, hh⟩⟩
  | quiet _ _ _ ht | illegal _ _ _ _ ht | imgWrite _ _ _ _ _ ht | payWrite _ _ _ _ _ ht =>
    subst ht
    exact ⟨rfl, .inr ⟨.inl rfl, .inl rfl, .inl rfl, .inl rfl, .inl rfl⟩⟩

/-- The word of a write to `CMD` is `v[1:0]` (10_state.md R22), and only the word 0 is `ADDR`. -/
theorem mod_four_of_decode_addr {v : Nat} (h : decode (commandWord v) = .command .addr) : v % 4 = 0 := by
  obtain ⟨-, -, hword⟩ := Laws.EncodeDecode.addr
  have := congrArg BitVec.toNat (hword _ h)
  simpa [commandWord, encode] using this

/-- Settles O32: a start step other than `ADDR`'s and every other move but a reset leaves `X`, `Y`, `CH`. -/
theorem addrResultsAreWrittenOnlyByAddr : Obligations.AddrResultsAreWrittenOnlyByAddr := by
  intro s t hs
  cases stepCase_of_step hs with
  | core l hb h =>
    have kept := (bitStep_frame h).kept
    exact .inl ⟨kept.x, kept.y, kept.ch⟩
  | start i v rest hp hh hd h =>
    by_cases hi : i = .addr
    · subst hi
      exact .inr (.inl ⟨hp, v, rest, hh, mod_four_of_decode_addr hd⟩)
    · obtain ⟨-, -, -, -, -, -, -, -, -, -, -, -, -, -, -, -, hxyc⟩ := exec_frame h
      exact .inl (hxyc hi)
  | operand r v rest hp ha hh ht =>
    subst ht
    rcases Reg.of_access_rw ha with rfl | rfl | rfl | rfl | rfl <;> exact .inl ⟨rfl, rfl, rfl⟩
  | reset rest hh ht => exact .inr (.inr ⟨rest, hh⟩)
  | quiet _ _ _ ht | illegal _ _ _ _ ht | imgWrite _ _ _ _ _ ht | payWrite _ _ _ _ _ ht =>
    subst ht
    exact .inl ⟨rfl, rfl, rfl⟩

/-- Settles O33: a bit step moves the cursor on, and under the invariant that does not wrap. -/
theorem cursorOnlyAdvancesByOne : Obligations.CursorOnlyAdvancesByOne := by
  intro s t hinv hs
  cases stepCase_of_step hs with
  | core l hb h =>
    refine .inr (.inl ⟨hb, ?_⟩)
    rw [(bitStep_frame h).cursor]
    exact hinv.seq.toNat_setCursor_succ hb
  | start i v rest hp hh hd h =>
    obtain ⟨-, -, -, -, -, -, -, -, -, -, -, -, -, hc | hc, -⟩ := exec_frame h
    · exact .inl hc
    · exact .inr (.inr ⟨hc, .inl ⟨hp, v, rest, hh⟩⟩)
  | operand r v rest hp ha hh ht =>
    subst ht
    rcases Reg.of_access_rw ha with rfl | rfl | rfl | rfl | rfl <;> exact .inl rfl
  | reset rest hh ht => exact .inr (.inr ⟨ht ▸ rfl, .inr ⟨rest, hh⟩⟩)
  | quiet _ _ _ ht | illegal _ _ _ _ ht | imgWrite _ _ _ _ _ ht | payWrite _ _ _ _ _ ht =>
    subst ht
    exact .inl rfl

/-! ### The host interface -/

/-- A busy core whose host's next move must wait takes its bit step, and the move stays pending. -/
theorem step_of_waits {s : State} {a : HostAction} {rest : List HostAction} (hb : s.phase ≠ .idle)
    (hh : s.host = a :: rest) (hw : a.waits = true) :
    step s = bitStep s ∧ ∀ t, step s = .next t → t.host = s.host := by
  have h : step s = bitStep s := step_busy hb (by rw [hh]; exact hw)
  exact ⟨h, fun t ht => (bitStep_frame (h.symm.trans ht)).host⟩

/-- Settles O35: each of the moves named is one that waits. -/
theorem hostMovesWaitWhileBusy : Obligations.HostMovesWaitWhileBusy := by
  intro s a rest hb hh hmove
  refine step_of_waits hb hh ?_
  rcases hmove with ⟨i, v, rfl, hi⟩ | ⟨p, bytes, rfl | rfl⟩ | ⟨p, n, rfl | rfl⟩
  · rcases hi with rfl | rfl | rfl | rfl | rfl | rfl <;> rfl
  all_goals rfl

/-- Settles O37: by what a write does to the register of its index. -/
theorem hostWriteStoresModuloTheWidth : Obligations.HostWriteStoresModuloTheWidth := by
  intro s i v rest hh
  constructor
  · intro hp hi
    rcases hi with rfl | rfl | rfl | rfl | rfl <;>
      exact ⟨_, step_writeReg hp hh rfl (by decide), by simp [State.writeReg, State.setHost]⟩
  · rintro (rfl | rfl | rfl | rfl | rfl | rfl | rfl | rfl) <;> exact step_writeReg_ro hh rfl rfl

/-- Settles O36: by the value of the register of the index read. -/
theorem hostReadReturnsTheCurrentValue : Obligations.HostReadReturnsTheCurrentValue := by
  intro s i rest hh
  refine ⟨?_, ?_, ?_, ?_, ?_, ?_, ?_, ?_, ?_, ?_, ?_, ?_, ?_⟩ <;>
    · rintro rfl
      exact step_readReg hh rfl rfl

/-! ### Commands -/

/-- Settles O5: the write is taken, and the word selects the command. -/
theorem cmdWriteWhileIdleRunsTheDecodedCommand : Obligations.CmdWriteWhileIdleRunsTheDecodedCommand := by
  intro s v rest i hp hh hd
  rw [step_writeCmd hp hh, startCommand, hd]

/-- Settles O7: every command's start step exists only while idle. -/
theorem noCommandExecutesWhileBusy : Obligations.NoCommandExecutesWhileBusy := by
  intro i s hb
  cases i with
  | addr | encode | decode => exact whenIdle_busy _ hb

end Sys2Proof.Machine

/-! # The two memories: who reads and writes which bytes (20_memory.md) -/

namespace Sys2Proof.Machine

/-! ### Addresses -/

/-- Settles O14: the dense address of `lin_addr`, at `NCH = 3` and at `NCH = 4`. -/
theorem frameBitAddressesAreDense : Obligations.FrameBitAddressesAreDense := by
  intro s b t ht
  rcases Nat.eq_zero_or_pos s.w.toNat with hw | hw
  · rw [hw, addr_zero] at ht
    cases ht
  · rw [addr_pos b hw] at ht
    obtain rfl := Option.some.inj ht
    rw [lin_addr, cellAddress]
    refine ⟨rfl, fun h => ?_, fun h => ?_⟩
    · rw [h]; omega
    · rw [h]; omega

/-- The cell of a frame bit lies in the bit's own pixel. -/
theorem cellAddress_div_nch (p : Params) (b : Nat) : cellAddress p.nch b / p.nch = b / 3 := by
  have hc : b % 3 < p.nch := by simp only [Params.nch]; omega
  rw [cellAddress, Nat.add_comm, Nat.add_mul_div_right _ _ (by omega), Nat.div_eq_of_lt hc, Nat.zero_add]

/-! ### The host's accesses -/

/-- What was stored is read back. -/
theorem Memory.readBytes_writeBytes {m : Memory} (a : Nat) (vs : List Byte) (hm : m.wf = true) :
    (m.writeBytes a vs).readBytes a vs.length = vs := by
  refine List.ext_getElem (Memory.length_readBytes _ _ _) fun j _ hj => ?_
  rw [Memory.getElem_readBytes, Memory.read_writeBytes a vs _ hm, dif_pos (by omega)]
  simp only [Nat.add_sub_cancel_left]

theorem Memory.read_writeBytes_outside {m : Memory} {a a' : Nat} {vs : List Byte} (hm : m.wf = true)
    (h : a' < a ∨ a + vs.length ≤ a') : (m.writeBytes a vs).read a' = m.read a' := by
  rw [Memory.read_writeBytes a vs a' hm, dif_neg (by omega)]

section
variable {s : State} {p n : Nat} {bytes : List Byte} {rest : List HostAction} (hp : s.phase = .idle)
include hp

theorem step_imgWrite (h : s.host = .imgWrite p bytes :: rest) (hf : fits s.params.imgBytes p bytes.length = true) :
    step s = .next ((s.setHost rest).setImg (s.img.writeBytes p bytes)) :=
  (step_of_taken h (.inr hp)).trans (if_pos hf)

theorem step_payWrite (h : s.host = .payWrite p bytes :: rest) (hf : fits s.params.payBytes p bytes.length = true) :
    step s = .next ((s.setHost rest).setPay (s.pay.writeBytes p bytes)) :=
  (step_of_taken h (.inr hp)).trans (if_pos hf)

theorem step_imgRead (h : s.host = .imgRead p n :: rest) (hf : fits s.params.imgBytes p n = true) :
    step s = .next ((s.setHost rest).see (.img p (s.img.readBytes p n))) := by
  rw [step_of_taken h (.inr hp), hostMove, loadImgBytes]
  exact congrArg (andThen · _) (if_pos hf)

theorem step_payRead (h : s.host = .payRead p n :: rest) (hf : fits s.params.payBytes p n = true) :
    step s = .next ((s.setHost rest).see (.pay p (s.pay.readBytes p n))) := by
  rw [step_of_taken h (.inr hp), hostMove, loadPayBytes]
  exact congrArg (andThen · _) (if_pos hf)

end

/-- Settles O38: the read after the write finds the bytes written. -/
theorem hostReadsBackWhatItWrote : Obligations.HostReadsBackWhatItWrote := by
  intro s p bytes rest hp hi hpy
  constructor
  · intro hh hf
    have hread := Memory.readBytes_writeBytes p bytes hi
    have hw := step_imgWrite hp hh hf
    have hr := step_imgRead (s := (s.setHost (.imgRead p bytes.length :: rest)).setImg (s.img.writeBytes p bytes))
      hp rfl hf
    refine ⟨_, (run_succ 1 hw).trans (run_succ 0 hr), rfl, ?_, rfl, fun a => Memory.read_writeBytes_outside hi⟩
    simp [hread]
  · intro hh hf
    have hread := Memory.readBytes_writeBytes p bytes hpy
    have hw := step_payWrite hp hh hf
    have hr := step_payRead (s := (s.setHost (.payRead p bytes.length :: rest)).setPay (s.pay.writeBytes p bytes))
      hp rfl hf
    refine ⟨_, (run_succ 1 hw).trans (run_succ 0 hr), rfl, ?_, rfl, fun a => Memory.read_writeBytes_outside hpy⟩
    simp [hread]

/-- Settles O48: by what one read of the host does and the bytes it reads. -/
theorem hostMemoryReadReturnsTheCurrentBytes : Obligations.HostMemoryReadReturnsTheCurrentBytes := by
  intro s p n rest hp
  exact ⟨fun hh hf => ⟨_, step_imgRead hp hh hf, Memory.length_readBytes _ _ _, Memory.getElem_readBytes _ _ _⟩,
    fun hh hf => ⟨_, step_payRead hp hh hf, Memory.length_readBytes _ _ _, Memory.getElem_readBytes _ _ _⟩⟩

/-- Settles O10: a placed word is a write to `CMD` at the head of an idle block's host moves. -/
theorem placedTableWordRunsNext : Obligations.PlacedTableWordRunsNext := by
  intro s nbits w i hi
  have hd : decode (commandWord (w % 2 ^ nbits)) = .command i := by
    cases hd : decode (commandWord (w % 2 ^ nbits)) with
    | command j =>
      simp only [decodeTableWord, hd] at hi
      rw [Option.some.inj hi]
    | reservedOpcode =>
      simp only [decodeTableWord, hd] at hi
      cases hi
  exact cmdWriteWhileIdleRunsTheDecodedCommand (s.withFetchWord nbits w) (w % 2 ^ nbits) s.host i rfl rfl hd

/-! ### What the core reads and writes of the memories -/

/-- A start step looks at neither memory (20_memory.md R65). -/
theorem exec_other_memories {i : Instr} {s t : State} (h : exec i s = .next t) (m p : Memory) :
    exec i { s with img := m, pay := p } = .next { t with img := m, pay := p } := by
  obtain ⟨hp, -⟩ := exec_frame h
  have hp' : ({ s with img := m, pay := p } : State).phase = .idle := hp
  cases i with
  | addr =>
    simp only [exec, execAddr_idle hp, execAddr_idle hp'] at h ⊢
    split_ifs at h ⊢
    cases h
    rfl
  | encode =>
    have hc : encodeCheck { s with img := m, pay := p } = encodeCheck s := rfl
    simp only [exec, execEncode_idle hp, execEncode_idle hp', hc] at h ⊢
    cases h
    cases encodeCheck s <;> rfl
  | decode =>
    have hc : decodeCheck { s with img := m, pay := p } = decodeCheck s := rfl
    simp only [exec, execDecode_idle hp, execDecode_idle hp', hc] at h ⊢
    cases h
    cases decodeCheck s <;> rfl

/-- The core's turn is its bit step, with the marker `coreStep` taken off the host's list or the list as it was. -/
theorem step_coreTurn {s : State} (hb : s.phase ≠ .idle)
    (h : hostWaits s.host = true ∨ ∃ rest, s.host = .coreStep :: rest) :
    ∃ l, ∀ s' : State, s'.phase = s.phase → s'.host = s.host → step s' = bitStep (s'.setHost l) := by
  rcases h with hw | ⟨rest, hh⟩
  · refine ⟨s.host, fun s' hp' hh' => ?_⟩
    rw [step_busy (hp' ▸ hb) (hh' ▸ hw), ← hh']
    rfl
  · refine ⟨rest, fun s' hp' hh' => ?_⟩
    rw [step_of_taken (hh'.trans hh) (.inl rfl), hostMove]
    exact if_pos (isBusy_iff.2 (hp' ▸ hb))

theorem SameControl.setPay (s : State) (p : Memory) : SameControl s (s.setPay p) :=
  ⟨rfl, rfl, rfl, rfl, rfl, rfl, rfl⟩

theorem SameControl.setImg (s : State) (m : Memory) : SameControl s (s.setImg m) :=
  ⟨rfl, rfl, rfl, rfl, rfl, rfl, rfl⟩

theorem bitStep_eq_bitNext {s t : State} (hm : s.img.wf = true) (h : bitStep s = .next t) : t = bitNext s :=
  Host.Outcome.next.inj (h.symm.trans (bitStep_next_of_same (SameControl.setPay s s.pay) hm (fun _ => hm) h))

/-- The cursor of a bit step lies in the range of its phase (44_sequencing_and_access.md R211). -/
theorem bitStep_cursor {s t : State} (hm : s.img.wf = true) (h : bitStep s = .next t) :
    s.cursor.toNat < 32 + 8 * s.len.toNat ∧
      (s.phase ≠ .prefixPhase → s.phase = .payloadPhase ∧ 32 ≤ s.cursor.toNat) := by
  cases bitStep_cases hm h with
  | encodePrefix hp ho hc hb ht | decodePrefix hp ho hc hb ht => exact ⟨by omega, fun hne => absurd hp hne⟩
  | encodePayload hp ho hc hl hb ht | decodePayload hp ho hc hl hb ht => exact ⟨hl, fun _ => ⟨hp, hc⟩⟩

theorem State.imgWith_read {s : State} (b : Nat) (bit : Bool) (a : Nat) (hm : s.img.wf = true) :
    (s.imgWith b bit).read a =
      if a = cellAddress s.params.nch b then withLsb (s.img.read (cellAddress s.params.nch b)) bit else s.img.read a :=
  Memory.read_write _ _ a hm

/-- A frame bit is written inside its own pixel. -/
theorem State.imgWith_read_otherPixel {s : State} {b a : Nat} (bit : Bool) (hm : s.img.wf = true)
    (ha : a / s.params.nch ≠ b / 3) : (s.imgWith b bit).read a = s.img.read a := by
  rw [State.imgWith_read b bit a hm, if_neg]
  rintro rfl
  exact ha (cellAddress_div_nch s.params b)

/-- A frame bit is written alike into images that agree in its cell. -/
theorem State.imgWith_setImg_read {s : State} {m : Memory} {b a : Nat} (bit : Bool) (hm : s.img.wf = true)
    (hm' : m.wf = true)
    (hcell : m.read (cellAddress s.params.nch b) = s.img.read (cellAddress s.params.nch b))
    (ha : m.read a = s.img.read a) : ((s.setImg m).imgWith b bit).read a = (s.imgWith b bit).read a := by
  rw [State.imgWith_read (s := s.setImg m) b bit a hm', State.imgWith_read b bit a hm]
  simp only [State.setImg_img, State.setImg_params, hcell, ha]

/-- The bit that an `ENCODE` step writes: of `LEN`, or of the byte of `PAY` it reads (41_encoder.md R149, R150). -/
def State.encodeBit (s : State) : Bool :=
  if s.phase = .prefixPhase then bitOf s.len s.cursor.toNat
  else bitOf (s.pay.read ((s.cursor.toNat - 32) / 8)) ((s.cursor.toNat - 32) % 8)

/-- `PAY` after a `DECODE` step that finds `p` in it: the last bit of a payload byte stores the byte, any other step
stores nothing (42_decoder.md R179). -/
def State.decodeStore (s : State) (p : Memory) : Memory :=
  if s.phase = .prefixPhase ∨ (s.cursor.toNat - 32) % 8 < 7 then p
  else p.write ((s.cursor.toNat - 32) / 8)
    (s.acc ||| bitAt 8 (s.lsbAt s.cursor.toNat) ((s.cursor.toNat - 32) % 8))

theorem bitNext_encode {s : State} (ho : s.op = encode .encode) :
    (s.phase = .prefixPhase → bitNext s = encodePrefixNext s) ∧
      (s.phase ≠ .prefixPhase → bitNext s = encodePayloadNext s) :=
  ⟨fun hp => (if_pos hp).trans (if_pos ho), fun hp => (if_neg hp).trans (if_pos ho)⟩

theorem bitNext_decode {s : State} (ho : s.op = encode .decode) :
    (s.phase = .prefixPhase → bitNext s = decodePrefixNext s) ∧
      (s.phase ≠ .prefixPhase → bitNext s = decodePayloadNext s) :=
  have hne := op_ne_encode ho
  ⟨fun hp => (if_pos hp).trans (if_neg hne), fun hp => (if_neg hp).trans (if_neg hne)⟩

theorem bitNext_encode_setImg {s : State} (ho : s.op = encode .encode) (m : Memory) :
    bitNext (s.setImg m) = (bitNext s).setImg ((s.setImg m).imgWith s.cursor.toNat s.encodeBit) := by
  obtain ⟨hfirst, hlater⟩ := bitNext_encode ho
  obtain ⟨hfirst', hlater'⟩ := bitNext_encode (s := s.setImg m) ho
  by_cases hp : s.phase = .prefixPhase
  · rw [hfirst' hp, hfirst hp, State.encodeBit, if_pos hp, encodePrefixNext_setImg]
  · rw [hlater' hp, hlater hp, State.encodeBit, if_neg hp, encodePayloadNext_setImg]

theorem bitNext_encode_setPay {s : State} (ho : s.op = encode .encode) {p : Memory}
    (h : s.phase ≠ .prefixPhase → p.read ((s.cursor.toNat - 32) / 8) = s.pay.read ((s.cursor.toNat - 32) / 8)) :
    bitNext (s.setPay p) = (bitNext s).setPay p := by
  obtain ⟨hfirst, hlater⟩ := bitNext_encode ho
  obtain ⟨hfirst', hlater'⟩ := bitNext_encode (s := s.setPay p) ho
  by_cases hp : s.phase = .prefixPhase
  · rw [hfirst' hp, hfirst hp, encodePrefixNext_setPay]
  · rw [hlater' hp, hlater hp, encodePayloadNext_setPay s p (h hp)]

theorem bitNext_decode_setImg {s : State} (ho : s.op = encode .decode) {m : Memory}
    (h : (s.setImg m).lsbAt s.cursor.toNat = s.lsbAt s.cursor.toNat) :
    bitNext (s.setImg m) = (bitNext s).setImg m := by
  obtain ⟨hfirst, hlater⟩ := bitNext_decode ho
  obtain ⟨hfirst', hlater'⟩ := bitNext_decode (s := s.setImg m) ho
  by_cases hp : s.phase = .prefixPhase
  · rw [hfirst' hp, hfirst hp, decodePrefixNext_setImg s m h]
  · rw [hlater' hp, hlater hp, decodePayloadNext_setImg s m h]

theorem bitNext_decode_setPay {s : State} (ho : s.op = encode .decode) (p : Memory) :
    bitNext (s.setPay p) = (bitNext s).setPay (s.decodeStore p) := by
  obtain ⟨hfirst, hlater⟩ := bitNext_decode ho
  obtain ⟨hfirst', hlater'⟩ := bitNext_decode (s := s.setPay p) ho
  by_cases hp : s.phase = .prefixPhase
  · rw [hfirst' hp, hfirst hp, State.decodeStore, if_pos (.inl hp), decodePrefixNext_setPay]
  · rw [hlater' hp, hlater hp, decodePayloadNext_setPay, State.decodeStore]
    simp only [hp, false_or]

section
variable {s t : State} (hm : s.img.wf = true) (h : bitStep s = .next t)
include hm h

/-- A step of `ENCODE` with another `PAY` that agrees below `LEN` does the same. -/
theorem bitStep_encode_setPay (ho : s.op = encode .encode) {p : Memory}
    (hread : ∀ k, k < s.len.toNat → p.read k = s.pay.read k) : bitStep (s.setPay p) = .next (t.setPay p) := by
  obtain ⟨hcur, hpayload⟩ := bitStep_cursor hm h
  have hbyte : s.phase ≠ .prefixPhase →
      p.read ((s.cursor.toNat - 32) / 8) = s.pay.read ((s.cursor.toNat - 32) / 8) := fun hp =>
    hread _ (by have := (hpayload hp).2; omega)
  rw [bitStep_next_of_same (SameControl.setPay s p) hm (fun _ => hm) h, bitNext_encode_setPay ho hbyte,
    bitStep_eq_bitNext hm h]

/-- A step of `ENCODE` puts its bit into the cell of its frame bit, whatever else the image holds. -/
theorem bitStep_encode_setImg (ho : s.op = encode .encode) {m : Memory} (hm' : m.wf = true) :
    bitStep (s.setImg m) = .next (t.setImg ((s.setImg m).imgWith s.cursor.toNat s.encodeBit)) := by
  rw [bitStep_next_of_same (SameControl.setImg s m) hm (fun _ => hm') h, bitNext_encode_setImg ho,
    bitStep_eq_bitNext hm h]

theorem bitStep_encode_img (ho : s.op = encode .encode) : t.img = s.imgWith s.cursor.toNat s.encodeBit :=
  congrArg State.img (Host.Outcome.next.inj (h.symm.trans (bitStep_encode_setImg hm h ho hm)))

/-- A step of `DECODE` with another `IMG` that agrees in the cell of its frame bit does the same. -/
theorem bitStep_decode_setImg (ho : s.op = encode .decode) {m : Memory}
    (hread : m.read (cellAddress s.params.nch s.cursor.toNat) =
      s.img.read (cellAddress s.params.nch s.cursor.toNat)) : bitStep (s.setImg m) = .next (t.setImg m) := by
  have hlsb : (s.setImg m).lsbAt s.cursor.toNat = s.lsbAt s.cursor.toNat := congrArg (bitOf · 0) hread
  rw [bitStep_next_of_same (SameControl.setImg s m) hm (fun he => absurd he (op_ne_encode ho)) h,
    bitNext_decode_setImg ho hlsb, bitStep_eq_bitNext hm h]

/-- A step of `DECODE` stores the same whatever `PAY` holds. -/
theorem bitStep_decode_setPay (ho : s.op = encode .decode) (p : Memory) :
    bitStep (s.setPay p) = .next (t.setPay (s.decodeStore p)) := by
  rw [bitStep_next_of_same (SameControl.setPay s p) hm (fun _ => hm) h, bitNext_decode_setPay ho,
    bitStep_eq_bitNext hm h]

theorem bitStep_decode_pay (ho : s.op = encode .decode) : t.pay = s.decodeStore s.pay :=
  congrArg State.pay (Host.Outcome.next.inj (h.symm.trans (bitStep_decode_setPay hm h ho s.pay)))

end

/-- Of a `DECODE` step's store: there is none, or it is one byte below `LEN` in the payload phase. -/
theorem State.decodeStore_cases {s : State} (hcur : s.cursor.toNat < 32 + 8 * s.len.toNat)
    (hpayload : s.phase ≠ .prefixPhase → s.phase = .payloadPhase ∧ 32 ≤ s.cursor.toNat) :
    (∀ p, s.decodeStore p = p) ∨
      ∃ k v, s.phase = .payloadPhase ∧ k < s.len.toNat ∧ ∀ p, s.decodeStore p = p.write k v := by
  by_cases hs : s.phase = .prefixPhase ∨ (s.cursor.toNat - 32) % 8 < 7
  · exact .inl fun p => if_pos hs
  · obtain ⟨hp, hge⟩ := hpayload fun hp => hs (.inl hp)
    exact .inr ⟨_, _, hp, by omega, fun p => if_neg hs⟩

/-- Settles O34: a start step looks at no memory, and the core's turn is a bit step, whose reach is that of
its command. -/
theorem commandsReachOnlyTheirMemory : Obligations.CommandsReachOnlyTheirMemory := by
  refine ⟨fun i s t h => ?_, fun s t hm hb hturn hstep => ?_⟩
  · obtain ⟨-, -, -, -, -, -, -, -, -, -, himg, hpay, -⟩ := exec_frame h
    exact ⟨himg, hpay, exec_other_memories h⟩
  obtain ⟨l, hl⟩ := step_coreTurn hb hturn
  have hmu : (s.setHost l).img.wf = true := hm
  have h : bitStep (s.setHost l) = .next t := (hl s rfl rfl).symm.trans hstep
  have hframe := bitStep_frame h
  obtain ⟨hcur, hpayload⟩ := bitStep_cursor hmu h
  refine ⟨fun ho => ⟨hframe.encodePay ho, fun p hread => ?_, hcur, fun a ha => ?_, fun m hm' => ?_⟩,
    fun ho => ⟨hframe.decodeImg ho, ?_, ?_⟩⟩
  · exact (hl { s with pay := p } rfl rfl).trans (bitStep_encode_setPay hmu h ho hread)
  · rw [bitStep_encode_img hmu h ho]
    exact State.imgWith_read_otherPixel _ hmu ha
  · have himg := bitStep_encode_img hmu h ho
    have hset := (hl { s with img := m } rfl rfl).trans (bitStep_encode_setImg hmu h ho hm')
    have hcell := cellAddress_div_nch s.params s.cursor.toNat
    refine ⟨_, hset, fun a => State.imgWith_read_otherPixel (s := (s.setHost l).setImg m) _ hm',
      fun hread a ha => ?_⟩
    rw [himg]
    exact State.imgWith_setImg_read _ hmu hm' (hread _ hcell) (hread a ha)
  · intro m hread
    exact (hl { s with img := m } rfl rfl).trans (bitStep_decode_setImg hmu h ho hread)
  · have hpay := bitStep_decode_pay hmu h ho
    have hset (p : Memory) : step { s with pay := p } = .next { t with pay := (s.setHost l).decodeStore p } :=
      (hl { s with pay := p } rfl rfl).trans (bitStep_decode_setPay hmu h ho p)
    rcases State.decodeStore_cases hcur hpayload with hnone | ⟨k, v, hp, hk, hone⟩
    · exact .inl ⟨hpay.trans (hnone _), fun p => by rw [hset, hnone]⟩
    · exact .inr ⟨k, v, hp, hk, hpay.trans (hone _), fun p => by rw [hset, hone]⟩

end Sys2Proof.Machine

/-! # `ENCODE` from its start step to its end (41_encoder.md R160), and that its image does not change when it is run
again (20_memory.md R73) -/

namespace Sys2Proof.Machine

/-! ### The image that a frame is written into -/

/-- `IMG` after the frame bits `0` to `n - 1` of the sequence `f`. -/
def framedImg (p : Params) (f : Nat → Bool) (m : Memory) : Nat → Memory
  | 0 => m
  | n + 1 =>
    let m' := framedImg p f m n
    m'.write (cellAddress p.nch n) (withLsb (m'.read (cellAddress p.nch n)) (f n))

theorem framedImg_wf (p : Params) (f : Nat → Bool) {m : Memory} (n : Nat) (hm : m.wf = true) :
    (framedImg p f m n).wf = true := by
  induction n with
  | zero => exact hm
  | succ n ih => exact Memory.wf_write _ _ ih

theorem framedImg_read_succ (p : Params) (f : Nat → Bool) {m : Memory} (n a : Nat) (hm : m.wf = true) :
    (framedImg p f m (n + 1)).read a =
      if a = cellAddress p.nch n then withLsb ((framedImg p f m n).read (cellAddress p.nch n)) (f n)
      else (framedImg p f m n).read a :=
  Memory.read_write _ _ a (framedImg_wf p f n hm)

/-- A byte that is no cell of the frame stays. -/
theorem framedImg_read_rest (p : Params) (f : Nat → Bool) {m : Memory} {n a : Nat} (hm : m.wf = true)
    (ha : ∀ i, i < n → a ≠ cellAddress p.nch i) : (framedImg p f m n).read a = m.read a := by
  induction n with
  | zero => rfl
  | succ n ih =>
    rw [framedImg_read_succ p f n a hm, if_neg (ha n n.lt_succ_self)]
    exact ih fun i hi => ha i (Nat.lt_succ_of_lt hi)

/-- The cell of a frame bit gets that bit as its bit 0; the cells of the other frame bits are other cells. -/
theorem framedImg_read_cell (p : Params) (f : Nat → Bool) {m : Memory} {n i : Nat} (hm : m.wf = true) (hi : i < n) :
    (framedImg p f m n).read (cellAddress p.nch i) = withLsb (m.read (cellAddress p.nch i)) (f i) := by
  induction n with
  | zero => exact absurd hi i.not_lt_zero
  | succ n ih =>
    rw [framedImg_read_succ p f n _ hm]
    rcases Nat.lt_succ_iff_lt_or_eq.1 hi with hlt | rfl
    · rw [if_neg fun h => hlt.ne (cellAddress_injective h), ih hlt]
    · rw [if_pos rfl, framedImg_read_rest p f hm fun j hj h => hj.ne (cellAddress_injective h).symm]

theorem withLsb_withLsb (old : Byte) (bit : Bool) : withLsb (withLsb old bit) bit = withLsb old bit := by
  refine BitVec.eq_of_getLsbD_eq fun i _ => ?_
  simp only [withLsb_getLsbD]
  split_ifs <;> rfl

/-- 20_memory.md R73: the same frame written again leaves the image as it is. -/
theorem framedImg_idem (p : Params) (f : Nat → Bool) {m : Memory} (n : Nat) (hm : m.wf = true) :
    framedImg p f (framedImg p f m n) n = framedImg p f m n := by
  have hw := framedImg_wf p f n hm
  refine Memory.ext_read (framedImg_wf p f n hw) hw fun a => ?_
  by_cases ha : ∃ i, i < n ∧ a = cellAddress p.nch i
  · obtain ⟨i, hi, rfl⟩ := ha
    rw [framedImg_read_cell p f hw hi, framedImg_read_cell p f hm hi, withLsb_withLsb]
  · exact framedImg_read_rest p f hw fun i hi h => ha ⟨i, hi, h⟩

/-! ### An `ENCODE` bit by bit -/

/-- The frame of the offered payload (30_encoding.md R100). -/
def State.offeredBit (s : State) (i : Nat) : Bool := frameBit s.plen.toNat s.pay.read i

/-- The block after the accepting start step of `ENCODE` in `s` and `n` bit steps. -/
def encodeAt (s : State) (n : Nat) : State :=
  { s with
    op := encode .encode
    len := s.plen.setWidth 32
    cursor := BitVec.ofNat 36 n
    img := framedImg s.params s.offeredBit s.img n
    phase := if n < 32 then .prefixPhase else if n < 32 + 8 * s.plen.toNat then .payloadPhase else .idle
    status := if n < 32 + 8 * s.plen.toNat then .busy else .ok }

theorem encodeAt_zero (s : State) :
    encodeAt s 0 = (s.setOp (encode .encode)).accept (s.plen.setWidth 32) := by
  simp [encodeAt, State.setOp, State.accept, framedImg]

theorem encodeAt_prefixPhase {s : State} {n : Nat} (hn : n < 32) :
    (encodeAt s n).phase = .prefixPhase ∧ (encodeAt s n).status = .busy :=
  ⟨if_pos hn, if_pos (by omega)⟩

theorem encodeAt_payloadPhase {s : State} {n : Nat} (hge : 32 ≤ n) (hlt : n < 32 + 8 * s.plen.toNat) :
    (encodeAt s n).phase = .payloadPhase ∧ (encodeAt s n).status = .busy :=
  ⟨(if_neg (by omega)).trans (if_pos hlt), if_pos hlt⟩

theorem encodeAt_end {s : State} {n : Nat} (hn : n = 32 + 8 * s.plen.toNat) :
    (encodeAt s n).phase = .idle ∧ (encodeAt s n).status = .ok :=
  ⟨(if_neg (by omega)).trans (if_neg (by omega)), if_neg (by omega)⟩

theorem encodeAt_busy {s : State} {n : Nat} (hn : n < 32 + 8 * s.plen.toNat) : (encodeAt s n).phase ≠ .idle := by
  rcases Nat.lt_or_ge n 32 with h | h
  · simp [encodeAt_prefixPhase h]
  · simp [encodeAt_payloadPhase h hn]

/-- One more bit in the image, the cursor moved on, and the phase and status of the next step: the next state. -/
theorem encodeAt_succ {s : State} {n : Nat} {p : Phase} {k : ResultKind}
    (h : (encodeAt s (n + 1)).phase = p ∧ (encodeAt s (n + 1)).status = k) :
    { ((encodeAt s n).setImg ((encodeAt s n).imgWith n (s.offeredBit n))).setCursor (n + 1) with
      phase := p, status := k } = encodeAt s (n + 1) := by
  obtain ⟨rfl, rfl⟩ := h
  rfl

section
variable {s : State} (hc : encodeCheck s = none)
include hc

theorem toNat_acceptedLen : (s.plen.setWidth 32).toNat = s.plen.toNat := by
  obtain ⟨-, -, hl, -⟩ := encodeCheck_none.1 hc
  rw [BitVec.toNat_setWidth, Nat.mod_eq_of_lt (by omega)]

/-- The cursor of an accepted `ENCODE` counts its bit steps. -/
theorem encodeAt_cursor {n : Nat} (hn : n ≤ 32 + 8 * s.plen.toNat) : (encodeAt s n).cursor.toNat = n := by
  obtain ⟨-, -, hl, -⟩ := encodeCheck_none.1 hc
  exact (BitVec.toNat_ofNat n 36).trans (Nat.mod_eq_of_lt (by omega))

theorem encodePrefixNext_encodeAt {n : Nat} (hn : n < 32) : encodePrefixNext (encodeAt s n) = encodeAt s (n + 1) := by
  have hcur : (encodeAt s n).cursor.toNat = n := encodeAt_cursor hc (by omega)
  have hlen : (encodeAt s n).len.toNat = s.plen.toNat := toNat_acceptedLen hc
  have hbit : bitOf (encodeAt s n).len n = s.offeredBit n := by
    simp [bitOf, encodeAt, State.offeredBit, frameBit, hn, BitVec.testBit_toNat]
  obtain ⟨hp, hk⟩ := encodeAt_prefixPhase (s := s) hn
  simp only [encodePrefixNext, hcur, hlen, hbit]
  split_ifs with h31 h0
  · exact encodeAt_succ (encodeAt_end (by omega))
  · rw [← encodeAt_succ (encodeAt_payloadPhase (s := s) (n := n + 1) (by omega) (by omega)), ← hk]
    rfl
  · rw [← encodeAt_succ (encodeAt_prefixPhase (s := s) (n := n + 1) (by omega)), ← hk, ← hp]
    rfl

theorem encodePayloadNext_encodeAt {n : Nat} (hge : 32 ≤ n) (hlt : n < 32 + 8 * s.plen.toNat) :
    encodePayloadNext (encodeAt s n) = encodeAt s (n + 1) := by
  have hcur : (encodeAt s n).cursor.toNat = n := encodeAt_cursor hc (by omega)
  have hlen : (encodeAt s n).len.toNat = s.plen.toNat := toNat_acceptedLen hc
  have hbit : bitOf ((encodeAt s n).pay.read ((n - 32) / 8)) ((n - 32) % 8) = s.offeredBit n := by
    simp [bitOf, encodeAt, State.offeredBit, frameBit, Nat.not_lt.2 hge]
  obtain ⟨hp, hk⟩ := encodeAt_payloadPhase hge hlt
  simp only [encodePayloadNext, hcur, hlen, hbit, frameBitLength, prefixBits]
  split_ifs with hend
  · exact encodeAt_succ (encodeAt_end hend)
  · rw [← encodeAt_succ (encodeAt_payloadPhase (s := s) (n := n + 1) (by omega) (by omega)), ← hk, ← hp]
    rfl

/-- Each bit step of an accepted `ENCODE` whose memories hold the image and the payload (41_encoder.md R154). -/
theorem bitStep_encodeAt {n : Nat} (hm : s.img.wf = true) (hh : s.imgHeld) (hpay : s.payHeld s.plen.toNat)
    (hn : n < 32 + 8 * s.plen.toNat) : bitStep (encodeAt s n) = .next (encodeAt s (n + 1)) := by
  obtain ⟨-, -, -, hf⟩ := encodeCheck_none.1 hc
  have hcur : (encodeAt s n).cursor.toNat = n := encodeAt_cursor hc hn.le
  have hlen : (encodeAt s n).len.toNat = s.plen.toNat := toNat_acceptedLen hc
  have hwf : (encodeAt s n).img.wf = true := framedImg_wf _ _ n hm
  have hcap : (encodeAt s n).cursor.toNat < s.w.toNat * s.h.toNat * 3 := hcur.trans_lt (hn.trans_le hf)
  rcases Nat.lt_or_ge n 32 with hlt | hge
  · have hstep : bitStep (encodeAt s n) = encodePrefixStep (encodeAt s n) := by
      simp only [bitStep, encodeAt_prefixPhase hlt, hcur, if_pos hlt, prefixBits]
      rfl
    rw [hstep, encodePrefixStep_inside hwf hh hcap, encodePrefixNext_encodeAt hc hlt]
  · have hstep : bitStep (encodeAt s n) = encodePayloadStep (encodeAt s n) := by
      simp only [bitStep, encodeAt_payloadPhase hge hn, hcur, hlen, prefixBits, frameBitLength]
      rw [if_pos ⟨hge, hn⟩]
      rfl
    have hbyte : fits s.params.payBytes (((encodeAt s n).cursor.toNat - 32) / 8) 1 = true :=
      fits_of_fits hpay (by omega) (.inr rfl)
    rw [hstep, encodePayloadStep_inside hwf hh hcap hbyte, encodePayloadNext_encodeAt hc hge hn]

/-- A run of an accepted `ENCODE` that the host leaves alone, from its first bit step. -/
theorem run_encodeAt {n : Nat} (hm : s.img.wf = true) (hh : s.imgHeld) (hpay : s.payHeld s.plen.toNat)
    (hw : hostWaits s.host = true) (hn : n ≤ 32 + 8 * s.plen.toNat) :
    Host.Core.run core n (encodeAt s 0) = .next (encodeAt s n) := by
  induction n with
  | zero => rfl
  | succ n ih =>
    refine run_snoc n (ih (by omega)) ?_
    rw [step_busy (encodeAt_busy hn) hw]
    exact bitStep_encodeAt hc hm hh hpay hn

end

/-! ### A whole `ENCODE` -/

/-- The state an `ENCODE` from the idle block `s` ends in: rejected, with nothing but `OP` and `STATUS.CODE` written, or
with its last frame bit written. -/
def encodeEnd (s : State) : State :=
  match encodeCheck s with
  | some k => (s.setOp (encode .encode)).finish k
  | none => encodeAt s (32 + 8 * s.plen.toNat)

theorem encodeEnd_rejected {s : State} {k : ResultKind} (hc : encodeCheck s = some k) :
    encodeEnd s = (s.setOp (encode .encode)).finish k := by
  simp only [encodeEnd, hc]

theorem encodeEnd_accepted {s : State} (hc : encodeCheck s = none) :
    encodeEnd s = encodeAt s (32 + 8 * s.plen.toNat) := by
  simp only [encodeEnd, hc]

theorem encodeSteps_accepted {s : State} (hc : encodeCheck s = none) :
    encodeSteps s = 32 + 8 * s.plen.toNat + 1 := by
  obtain ⟨hi, hpo, hl, hf⟩ := encodeCheck_none.1 hc
  rw [encodeSteps, if_neg (by simp [hi, hpo]; omega), Nat.add_comm]

theorem encodeSteps_rejected {s : State} {k : ResultKind} (hc : encodeCheck s = some k) : encodeSteps s = 1 := by
  have hne : encodeCheck s ≠ none := by simp [hc]
  rw [Ne, encodeCheck_none] at hne
  rw [encodeSteps, if_pos ?_]
  by_contra hno
  simp only [not_or, Bool.not_eq_false, Nat.not_lt] at hno
  exact hne hno

/-- What an accepted `ENCODE` under the host's duty can reach of the memories exists. -/
theorem State.encodeDuty.held {s : State} (h : s.encodeDuty) (hc : encodeCheck s = none) :
    s.imgHeld ∧ s.payHeld s.plen.toNat := by
  obtain ⟨hi, hpo, hl, hf⟩ := encodeCheck_none.1 hc
  obtain ⟨hh, hpay⟩ := h hi
  have hmin : min s.plen.toNat ((s.w.toNat * s.h.toNat * 3 - 32) / 8) = s.plen.toNat := min_eq_left (by omega)
  exact ⟨hh, hmin ▸ hpay hpo (by omega)⟩

/-- The start step of `ENCODE` from the host's write to `CMD`. -/
theorem step_startEncode {s : State} {v : Nat} {rest : List HostAction} (hp : s.phase = .idle)
    (hh : s.host = .wr 0x0 v :: rest) (hd : decode (commandWord v) = .command .encode) :
    step s = execEncode (s.setHost rest) := by
  rw [step_writeCmd hp hh, startCommand, hd]
  rfl

/-- From the write to `CMD`, `ENCODE` ends after exactly its number of steps (41_encoder.md R153, R160). -/
theorem run_encode {s : State} {v : Nat} {rest : List HostAction} (hm : s.img.wf = true) (hp : s.phase = .idle)
    (hh : s.host = .wr 0x0 v :: rest) (hd : decode (commandWord v) = .command .encode)
    (hw : hostWaits rest = true) (hduty : s.encodeDuty) :
    Host.Core.run core (encodeSteps s) s = .next (encodeEnd (s.setHost rest)) := by
  have hstart := (step_startEncode hp hh hd).trans (execEncode_idle hp)
  cases hc : encodeCheck (s.setHost rest) with
  | some k =>
    rw [hc] at hstart
    have hk : encodeSteps s = 0 + 1 := encodeSteps_rejected hc
    rw [hk, run_succ 0 hstart, encodeEnd_rejected hc]
    rfl
  | none =>
    rw [hc] at hstart
    have hk : encodeSteps s = 32 + 8 * s.plen.toNat + 1 := encodeSteps_accepted hc
    obtain ⟨himg, hpay⟩ := State.encodeDuty.held (s := s.setHost rest) hduty hc
    rw [hk, run_succ _ hstart, encodeEnd_accepted hc, ← encodeAt_zero]
    exact run_encodeAt hc hm himg hpay hw le_rfl

/-! ### A second `ENCODE` -/

theorem encodeEnd_idle (s : State) : (encodeEnd s).phase = .idle := by
  cases hc : encodeCheck s with
  | some k => rw [encodeEnd_rejected hc]; rfl
  | none => rw [encodeEnd_accepted hc]; exact (encodeAt_end rfl).1

theorem encodeEnd_frame (s : State) :
    OperandsKept s (encodeEnd s) ∧ (encodeEnd s).pay = s.pay ∧ (encodeEnd s).host = s.host := by
  cases hc : encodeCheck s with
  | some k => rw [encodeEnd_rejected hc]; exact ⟨by constructor <;> rfl, rfl, rfl⟩
  | none => rw [encodeEnd_accepted hc]; exact ⟨by constructor <;> rfl, rfl, rfl⟩

theorem encodeEnd_img_wf {s : State} (hm : s.img.wf = true) : (encodeEnd s).img.wf = true := by
  cases hc : encodeCheck s with
  | some k => rw [encodeEnd_rejected hc]; exact hm
  | none => rw [encodeEnd_accepted hc]; exact framedImg_wf _ _ _ hm

/-- The checks of `ENCODE` look at operands only. -/
theorem OperandsKept.encodeCheck_eq {s t : State} (h : OperandsKept s t) : encodeCheck t = encodeCheck s := by
  simp only [encodeCheck, State.imgOk, State.payOk, State.capacityBits, h.env, h.plen, h.w, h.h]

theorem OperandsKept.encodeSteps_eq {s t : State} (h : OperandsKept s t) : encodeSteps t = encodeSteps s := by
  cases hc : encodeCheck s with
  | some k => rw [encodeSteps_rejected hc, encodeSteps_rejected (h.encodeCheck_eq.trans hc)]
  | none => rw [encodeSteps_accepted hc, encodeSteps_accepted (h.encodeCheck_eq.trans hc), h.plen]

theorem OperandsKept.encodeDuty {s t : State} (h : OperandsKept s t) (hs : s.encodeDuty) : t.encodeDuty := by
  simpa only [State.encodeDuty, State.imgHeld, State.payHeld, State.imgOk, State.payOk, h.env, h.plen, h.w, h.h,
    h.params] using hs

/-- 20_memory.md R73: an `ENCODE` with the operands and the payload of the one that left the image
leaves it as it is. -/
theorem encodeEnd_img_again {s u : State} (hm : s.img.wf = true) (hk : OperandsKept s u) (hpay : u.pay = s.pay)
    (himg : u.img = (encodeEnd s).img) : (encodeEnd u).img = u.img := by
  cases hc : encodeCheck s with
  | some k => rw [encodeEnd_rejected (hk.encodeCheck_eq.trans hc)]; rfl
  | none =>
    have hbits : u.offeredBit = s.offeredBit := by
      funext i
      simp only [State.offeredBit, hk.plen, hpay]
    rw [encodeEnd_accepted hc] at himg
    rw [encodeEnd_accepted (hk.encodeCheck_eq.trans hc)]
    simp only [encodeAt] at himg ⊢
    rw [himg, hk.params, hk.plen, hbits, framedImg_idem _ _ _ hm]

/-- Settles O46: both runs end as `ENCODE` does, and the second writes the frame that already stands there. -/
theorem encodeTwiceIsEncodeOnce : Obligations.EncodeTwiceIsEncodeOnce := by
  intro s v v' rest hinv hp hh hd hd' hw hduty
  have hm := hinv.data.imgWf
  obtain ⟨hk, hpay, hhost⟩ := encodeEnd_frame (s.setHost (.wr 0x0 v' :: rest))
  have hrun := run_encode hm hp hh hd rfl hduty
  have hidle := encodeEnd_idle (s.setHost (.wr 0x0 v' :: rest))
  have hwf := encodeEnd_img_wf (s := s.setHost (.wr 0x0 v' :: rest)) hm
  generalize ht : encodeEnd (s.setHost (.wr 0x0 v' :: rest)) = t at hk hpay hhost hrun hidle hwf
  have hrun' := run_encode hwf hidle hhost hd' hw (hk.encodeDuty hduty)
  rw [hk.encodeSteps_eq] at hrun'
  have himg : (encodeEnd (t.setHost rest)).img = t.img :=
    encodeEnd_img_again (s := s.setHost (.wr 0x0 v' :: rest)) hm { hk with } hpay (ht ▸ rfl)
  exact ⟨t, _, hrun, hidle, (run_add _ _ hrun).trans hrun', encodeEnd_idle _, himg⟩

end Sys2Proof.Machine

/-! # Command words, status codes, the frame (30_encoding.md), and how a `WAIT` ends (R111) -/

namespace Sys2Proof.Machine

/-! ### Command words -/

/-- The word of a write to `CMD` is `v[1:0]` (10_state.md R22). -/
theorem commandWord_mod_four (v : Nat) : commandWord v = BitVec.ofNat 2 (v % 4) :=
  BitVec.eq_of_toNat_eq (by simp [commandWord])

theorem decode_reserved {v : Nat} (h : v % 4 = 3) : decode (commandWord v) = .reservedOpcode := by
  rw [commandWord_mod_four, h]
  rfl

/-- A command is well formed, its word decodes to it, and no other word does. -/
theorem encodeDecode (i : Instr) : Laws.EncodeDecode.Statement i := by
  cases i with
  | addr => exact Laws.EncodeDecode.addr
  | encode => exact Laws.EncodeDecode.encode
  | decode => exact Laws.EncodeDecode.decode

/-- Settles O1, by the four words. -/
theorem opcodeWordsDecodeByMatchAndMask : Obligations.OpcodeWordsDecodeByMatchAndMask := by
  unfold Obligations.OpcodeWordsDecodeByMatchAndMask
  decide

/-- Settles O2, by what holds of each command's word. -/
theorem decodeAndEncodeAgree : Obligations.DecodeAndEncodeAgree := by
  refine ⟨fun i _ => ?_, fun w i h => ?_⟩
  · obtain ⟨-, hdecode, -⟩ := encodeDecode i
    exact hdecode
  · obtain ⟨-, -, hword⟩ := encodeDecode i
    exact (hword w h).symm

/-- Settles O6: the write is taken, its word is the reserved one, and the block is idle. -/
theorem reservedOpcodeReportsIllegalCommand : Obligations.ReservedOpcodeReportsIllegalCommand := by
  intro s v rest hp hh hv
  have hidle : (s.setHost rest).phase = .idle := hp
  rw [step_writeCmd hp hh, startCommand, decode_reserved hv, illegalCommand, whenIdle_idle _ hidle]
  simp [raise, State.finish, State.setOp, State.setHost, hp]

/-! ### The codes of `STATUS.CODE` -/

/-- The table of 30_encoding.md R96 read from the number; the unused numbers have no kind. -/
def ResultKind.ofCode (c : BitVec 4) : Option ResultKind :=
  match c.toNat with
  | 0x0 => some .none
  | 0x1 => some .ok
  | 0x2 => some .busy
  | 0x3 => some .emptyPayloadWarning
  | 0x8 => some .imageLoadError
  | 0x9 => some .payloadReadError
  | 0xA => some .payloadTooLargeError
  | 0xB => some .insufficientCapacityError
  | 0xC => some .invalidLengthError
  | 0xD => some .outputWriteError
  | 0xF => some .illegalCommand
  | _ => none

theorem ResultKind.ofCode_code (k : ResultKind) : ResultKind.ofCode k.code = some k := by
  cases k <;> rfl

theorem ResultKind.code_injective {j k : ResultKind} (h : j.code = k.code) : j = k :=
  Option.some.inj (by rw [← ResultKind.ofCode_code j, h, ResultKind.ofCode_code])

theorem ResultKind.isError_iff (k : ResultKind) :
    k.isError = true ↔ k ≠ .none ∧ k ≠ .ok ∧ k ≠ .busy ∧ k ≠ .emptyPayloadWarning := by
  cases k <;> decide

/-- Settles O3: the table can be read back, so its numbers are distinct. -/
theorem statusCodesAreTheTable : Obligations.StatusCodesAreTheTable :=
  ⟨⟨rfl, rfl, rfl, rfl, rfl, rfl, rfl, rfl, rfl, rfl, rfl⟩, fun _ _ => ResultKind.code_injective,
    ResultKind.isError_iff⟩

/-! ### The frame -/

/-- The bits of a word assemble back to it. -/
theorem gather_getLsbD {w : Nat} (v : BitVec w) : gather (fun i => v.getLsbD i) w = v.toNat := by
  simp only [← BitVec.testBit_toNat, gather_testBit, Nat.mod_eq_of_lt v.isLt]

/-- Frame bits 0 to 31 are the bits of the length. -/
theorem frameBit_length (l : Nat) (p : Nat → Byte) {i : Nat} (h : i < 32) : frameBit l p i = l.testBit i :=
  if_pos h

/-- Frame bits `32 + 8k` to `32 + 8k + 7` are the bits of byte `k`. -/
theorem frameBit_byte (l : Nat) (p : Nat → Byte) (k : Nat) {j : Nat} (h : j < 8) :
    frameBit l p (32 + 8 * k + j) = (p k).getLsbD j := by
  have hk : (32 + 8 * k + j - 32) / 8 = k := by omega
  have hj : (32 + 8 * k + j - 32) % 8 = j := by omega
  rw [frameBit, if_neg (by omega), hk, hj]

/-- Settles O4: the frame's bits are those of its length and its bytes, and bits assemble back. -/
theorem frameBitsAssembleBack : Obligations.FrameBitsAssembleBack := by
  intro l p hl
  refine ⟨?_, fun k => ?_, fun g => ⟨Nat.le_sub_one_of_lt (gather_lt g 32), Nat.le_sub_one_of_lt (gather_lt g 8)⟩⟩
  · rw [gather_congr fun i => frameBit_length l p, gather_testBit, Nat.mod_eq_of_lt hl]
  · rw [gather_congr fun j => frameBit_byte l p k, gather_getLsbD]

/-! ### One turn of `WAIT` -/

theorem Phase.code_ne_zero {p : Phase} (h : p ≠ .idle) : p.code.toNat ≠ 0 := by
  cases p with
  | idle => exact absurd rfl h
  | prefixPhase | payloadPhase => decide

/-- Settles O49: a turn of `WAIT` and a read of `PHASE` hand over the same value. -/
theorem waitIsARepeatedReadOfPhase : Obligations.WaitIsARepeatedReadOfPhase := by
  intro s rest hh
  have hread (l : List HostAction) : step { s with host := .rd 0x2 :: l } =
      .next { s with host := l, seen := s.seen ++ [.reg 0x2 s.phase.code.toNat] } :=
    step_readReg (s := { s with host := .rd 0x2 :: l }) (r := .phase) rfl rfl rfl
  refine ⟨fun hp => ?_, fun hp => ?_⟩
  · have hwait := step_wait_idle hh hp
    exact ⟨hwait, by rw [hwait, hread, hp]; rfl⟩
  · have hwait := step_wait_busy hh hp
    exact ⟨Phase.code_ne_zero hp, hwait, by rw [hwait, hread]⟩

/-! ### A command in progress goes on to its end -/

/-- What the payload phase reaches of `PAY` exists under the duty (70_reset_and_hazards.md R266). -/
theorem State.PayloadInv.payHeld {s : State} (h : s.PayloadInv) (hd : s.busyDuty) : s.payHeld s.len.toNat := by
  obtain ⟨-, hencode, hdecode⟩ := hd
  have hfits := h.frameFits
  rcases h.op with ho | ho
  · exact hencode ho
  · exact fits_of_fits (hdecode ho) (by omega) (.inr rfl)

theorem bitStep_prefixPhase {s : State} (h : s.PrefixInv) (hh : s.imgHeld) : bitStep s = .next (bitNext s) := by
  have hc : s.cursor.toNat < 32 := Nat.lt_succ_of_le h.cursor
  have hcap : s.cursor.toNat < s.w.toNat * s.h.toNat * 3 := hc.trans_le h.prefixFits
  simp only [bitStep, bitNext, h.phase, prefixBits, if_pos hc, if_true]
  rcases h.op with ho | ho
  · rw [if_pos ho, if_pos ho, encodePrefixStep_inside h.imgWf hh hcap]
  · have hne := op_ne_encode ho
    rw [if_neg hne, if_neg hne, if_pos ho, decodePrefixStep_inside hh hcap]

theorem bitStep_payloadPhase {s : State} (h : s.PayloadInv) (hh : s.imgHeld) (hp : s.payHeld s.len.toNat) :
    bitStep s = .next (bitNext s) := by
  have hlt := h.cursorLt
  have hcap : s.cursor.toNat < s.w.toNat * s.h.toNat * 3 := hlt.trans_le h.frameFits
  have hrow : 32 ≤ s.cursor.toNat ∧ s.cursor.toNat < 32 + 8 * s.len.toNat := ⟨h.cursorGe, hlt⟩
  have hbyte : fits s.params.payBytes ((s.cursor.toNat - 32) / 8) 1 = true :=
    fits_of_fits hp (by omega) (.inr rfl)
  simp only [bitStep, bitNext, h.phase, prefixBits, frameBitLength, if_pos hrow, reduceCtorEq, if_false]
  rcases h.op with ho | ho
  · rw [if_pos ho, if_pos ho, encodePayloadStep_inside h.imgWf hh hcap hbyte]
  · have hne := op_ne_encode ho
    rw [if_neg hne, if_neg hne, if_pos ho, decodePayloadStep_inside hh hcap hbyte]

/-- Under the size duties the bit step of a command in progress answers a next state (41_encoder.md R154,
42_decoder.md R182). -/
theorem bitStep_busy {s : State} (h : s.Inv) (hd : s.busyDuty) (hb : s.phase ≠ .idle) :
    bitStep s = .next (bitNext s) := by
  cases hp : s.phase with
  | idle => exact absurd hp hb
  | prefixPhase => exact bitStep_prefixPhase (h.prefixPhase hp) hd.1
  | payloadPhase =>
    have hi := h.payloadPhase hp
    exact bitStep_payloadPhase hi hd.1 (hi.payHeld hd)

/-- `ENCODE` leaves `LEN` alone after its start step. -/
theorem bitStep_encode_len {s t : State} (hm : s.img.wf = true) (h : bitStep s = .next t)
    (ho : s.op = encode .encode) : t.len = s.len := by
  cases bitStep_cases hm h with
  | encodePrefix hp _ hc hb ht =>
    subst ht
    simp only [encodePrefixNext]
    split_ifs <;> rfl
  | encodePayload hp _ hc hl hb ht =>
    subst ht
    simp only [encodePayloadNext]
    split_ifs <;> rfl
  | decodePrefix hp hdec | decodePayload hp hdec => exact absurd ho (op_ne_encode hdec)

theorem State.busyDuty.bitStep {s t : State} (hd : s.busyDuty) (hm : s.img.wf = true) (h : bitStep s = .next t) :
    t.busyDuty := by
  obtain ⟨himg, hencode, hdecode⟩ := hd
  have hf := bitStep_frame h
  refine ⟨?_, fun ho => ?_, fun ho => ?_⟩
  · rwa [State.imgHeld, hf.kept.params, hf.kept.w, hf.kept.h]
  · have ho' : s.op = encode .encode := hf.op.symm.trans ho
    rw [State.payHeld, hf.kept.params, bitStep_encode_len hm h ho']
    exact hencode ho'
  · rw [State.payHeld, hf.kept.params, hf.kept.w, hf.kept.h]
    exact hdecode (hf.op.symm.trans ho)

/-- No frame has more than `2^35 + 24` bits (10_state.md R52). -/
theorem State.SeqInv.cursor_lt {s : State} (h : s.SeqInv) (hb : s.phase ≠ .idle) :
    s.cursor.toNat < 2 ^ 35 + 24 := by
  have hl := s.len.isLt
  cases hp : s.phase with
  | idle => exact absurd hp hb
  | prefixPhase => have := h.prefixCursor hp; omega
  | payloadPhase => obtain ⟨-, -, hc⟩ := h.payloadCursor hp; omega

/-- `k` bit steps lead from `s` to `u`, the first state on the way in which no command is in progress. -/
inductive EndsAfter : Nat → State → State → Prop where
  | idle {s : State} (hp : s.phase = .idle) : EndsAfter 0 s s
  | bit {s t u : State} {k : Nat} (hb : s.phase ≠ .idle) (hs : bitStep s = .next t) (h : EndsAfter k t u) :
    EndsAfter (k + 1) s u

theorem EndsAfter.phase {k : Nat} {s u : State} (h : EndsAfter k s u) : u.phase = .idle := by
  induction h with
  | idle hp => exact hp
  | bit hb hs h ih => exact ih

/-- A command in progress ends: each bit step moves the cursor on, and the cursor is bounded by the longest frame. -/
theorem exists_endsAfter {s : State} {m : Nat} (h : s.Inv) (hd : s.busyDuty)
    (hm : s.phase ≠ .idle → 2 ^ 35 + 24 ≤ s.cursor.toNat + m) : ∃ k u, k ≤ m ∧ EndsAfter k s u := by
  induction m generalizing s with
  | zero =>
    have hp : s.phase = .idle := by
      by_contra hb
      exact absurd (hm hb) (Nat.not_le.2 (h.seq.cursor_lt hb))
    exact ⟨0, s, le_rfl, .idle hp⟩
  | succ m ih =>
    by_cases hp : s.phase = .idle
    · exact ⟨0, s, Nat.zero_le _, .idle hp⟩
    have hs := bitStep_busy h hd hp
    have hcur : (bitNext s).cursor.toNat = s.cursor.toNat + 1 := by
      rw [(bitStep_frame hs).cursor, h.seq.toNat_setCursor_succ hp]
    have hrest := hm hp
    obtain ⟨k, u, hk, hu⟩ := ih (bitStep_inv h hs) (hd.bitStep h.data.imgWf hs) fun _ => by omega
    exact ⟨k + 1, u, Nat.succ_le_succ hk, .bit hp hs hu⟩

/-! ### The command left alone, and the command under a `WAIT` -/

/-- The steps of a command that the host leaves alone are its bit steps. -/
theorem EndsAfter.run {k : Nat} {s u : State} (h : EndsAfter k s u) (hw : hostWaits s.host = true) :
    Host.Core.run core k s = .next u ∧
      ∀ j, j < k → ∃ v, Host.Core.run core j s = .next v ∧ v.phase ≠ .idle := by
  induction h with
  | idle hp => exact ⟨rfl, fun j hj => absurd hj j.not_lt_zero⟩
  | bit hb hs h ih =>
    obtain ⟨hrun, hbefore⟩ := ih (by rwa [(bitStep_frame hs).host])
    have hstep := (step_busy hb hw).trans hs
    refine ⟨(run_succ _ hstep).trans hrun, fun j hj => ?_⟩
    cases j with
    | zero => exact ⟨_, rfl, hb⟩
    | succ j =>
      rw [run_succ j hstep]
      exact hbefore j (Nat.lt_of_succ_lt_succ hj)

/-- A read of `PHASE` that found a command in progress. -/
def HostSeen.busyPoll (o : HostSeen) : Prop := ∃ c, c ≠ 0 ∧ o = .reg 0x2 c

/-- The marker `coreStep` gives a command in progress its bit step. -/
theorem step_coreStep_busy {s : State} {rest : List HostAction} (hh : s.host = .coreStep :: rest)
    (hb : s.phase ≠ .idle) : step s = bitStep (s.setHost rest) := by
  rw [step_of_taken hh (.inl rfl), hostMove]
  exact if_pos (isBusy_iff.2 hb)

/-- A busy turn of `WAIT`: the read of `PHASE`, then the bit step. -/
theorem run_wait_busy {s t : State} (hm : s.img.wf = true) (hb : s.phase ≠ .idle) (hs : bitStep s = .next t)
    (rest : List HostAction) (seen : List HostSeen) :
    Host.Core.run core 2 { s with host := .wait :: rest, seen := seen } =
      .next { t with host := .wait :: rest, seen := seen ++ [.reg 0x2 s.phase.code.toNat] } := by
  have hpoll := step_wait_busy (s := { s with host := .wait :: rest, seen := seen }) rfl hb
  have hcore := (step_coreStep_busy (s := { s with
      host := .coreStep :: .wait :: rest, seen := seen ++ [.reg 0x2 s.phase.code.toNat] }) rfl hb).trans
    (bitStep_of_other_host hm hs _ _)
  rw [run_succ 1 hpoll, run_succ 0 hcore, run_zero]

/-- A `WAIT` ends where the command alone does, whatever the host saw before. -/
theorem EndsAfter.run_wait {k : Nat} {s u : State} (h : EndsAfter k s u) (hinv : s.Inv) (rest : List HostAction)
    (seen : List HostSeen) :
    ∃ n polls, Host.Core.run core n { s with host := .wait :: rest, seen := seen } =
        .next { u with host := rest, seen := seen ++ polls ++ [.reg 0x2 0] } ∧
      ∀ o ∈ polls, HostSeen.busyPoll o := by
  induction h generalizing seen with
  | @idle s hp =>
    have hlast := step_wait_idle (s := { s with host := .wait :: rest, seen := seen }) rfl hp
    exact ⟨1, [], by rw [run_succ 0 hlast, run_zero, List.append_nil], by simp⟩
  | @bit s t u k hb hs h ih =>
    obtain ⟨n, polls, hrun, hpolls⟩ := ih (bitStep_inv hinv hs) (seen ++ [.reg 0x2 s.phase.code.toNat])
    refine ⟨2 + n, .reg 0x2 s.phase.code.toNat :: polls, ?_, ?_⟩
    · rw [run_add 2 n (run_wait_busy hinv.data.imgWf hb hs rest seen), hrun, List.append_assoc seen,
        List.singleton_append]
    · exact List.forall_mem_cons.2 ⟨⟨_, Phase.code_ne_zero hb, rfl⟩, hpolls⟩

/-- Settles O50: the command ends by its bit steps, and both the run of the command alone and the run under `WAIT`
follow them. -/
theorem waitEndsWhenTheCommandHasEnded : Obligations.WaitEndsWhenTheCommandHasEnded := by
  intro s rest hinv hd hb hh
  have halone : ({ s with host := [] } : State).Inv := hinv.of_other_host [] s.seen s.draws
  obtain ⟨k, u, hk, hend⟩ := exists_endsAfter (m := 2 ^ 35 + 24) halone hd fun _ => Nat.le_add_left _ _
  obtain ⟨hrun, hbefore⟩ := hend.run rfl
  obtain ⟨n, polls, hwait, hpolls⟩ := hend.run_wait halone rest s.seen
  rw [← hh] at hwait
  exact ⟨k, n, _, u, polls, hk, hrun, hend.phase, hbefore, hwait, rfl, hpolls⟩

end Sys2Proof.Machine

/-! # The addressing unit (40_bit_addressor.md), and where a step stops (U1, U10) -/

namespace Sys2Proof.Machine

/-! ### The address function and its inverse -/

/-- 40_bit_addressor.md R123: a triple is that of an index exactly when it is a channel of a column of the row and the
index counts the cells before it. -/
theorem addr_eq_some_iff {b wd : Nat} {t : Triple} (hw : 0 < wd) :
    addr b wd = some t ↔ t.x < wd ∧ t.c ≤ 2 ∧ b = 3 * (t.y * wd + t.x) + t.c := by
  obtain ⟨x, y, c⟩ := t
  have hpixel : b / 3 / wd = y ∧ b / 3 % wd = x ↔ x + wd * y = b / 3 ∧ x < wd := Nat.div_mod_unique hw
  rw [addr_pos b hw, Option.some_inj, Triple.mk.injEq, Nat.mul_comm y wd]
  dsimp only
  constructor
  · rintro ⟨hx, hy, hc⟩
    obtain ⟨hb, hlt⟩ := hpixel.1 ⟨hy, hx⟩
    exact ⟨hlt, by omega, by omega⟩
  · rintro ⟨hlt, hc, hb⟩
    obtain ⟨hy, hx⟩ := hpixel.2 ⟨by omega, hlt⟩
    exact ⟨hx, hy, by omega⟩

/-- The row of an index lies below the height exactly when the index lies below the capacity. -/
theorem addr_row_lt_iff {b wd : Nat} {t : Triple} (hw : 0 < wd) (ht : addr b wd = some t) (h : Nat) :
    t.y < h ↔ b < wd * h * 3 := by
  rw [addr_pos b hw] at ht
  obtain rfl := Option.some.inj ht
  exact row_lt_iff hw

/-- Settles O12: the inverse is the number of cells before the triple's, and rows are counted by the capacity. -/
theorem addressFunctionHasTheInverse : Obligations.AddressFunctionHasTheInverse := by
  intro b wd hw
  refine ⟨⟨_, addr_pos b hw⟩, fun t => ⟨addr_eq_some_iff hw, fun ht => ?_⟩⟩
  obtain ⟨-, hc, hb⟩ := (addr_eq_some_iff hw).1 ht
  exact ⟨by omega, fun h => (addr_row_lt_iff hw ht h).symm⟩

/-- Settles O13: by the inverse, the cell named by each form is the one after the cell of `b`. -/
theorem addressFunctionHasTheSuccessorForm : Obligations.AddressFunctionHasTheSuccessorForm := by
  intro wd hw
  refine ⟨(addr_eq_some_iff hw).2 ⟨hw, by simp, by simp⟩, fun b t ht => ?_⟩
  obtain ⟨hx, hc, hb⟩ := (addr_eq_some_iff hw).1 ht
  refine ⟨fun hc' => ?_, fun hc' hx' => ?_, fun hc' hx' => ?_⟩ <;> rw [addr_eq_some_iff hw]
  · exact ⟨hx, hc', by dsimp only; omega⟩
  · exact ⟨by dsimp only; omega, Nat.zero_le 2, by dsimp only; omega⟩
  · have hrow : (t.y + 1) * wd = t.y * wd + wd := Nat.succ_mul _ _
    exact ⟨hw, Nat.zero_le 2, by dsimp only; omega⟩

/-! ### `ADDR` -/

theorem decode_addr {v : Nat} (h : v % 4 = 0) : decode (commandWord v) = .command .addr := by
  rw [commandWord_mod_four, h]
  rfl

/-- Settles O11: what `ADDR` does on an idle block, with results that fit their registers. -/
theorem addrTranslatesTheBitIndex : Obligations.AddrTranslatesTheBitIndex := by
  intro s hp
  refine ⟨fun hw => ?_, fun hw => ?_, fun v rest hh hv => ?_⟩
  · have hx : s.b.toNat / 3 % s.w.toNat < s.w.toNat := Nat.mod_lt _ hw
    have hy : s.b.toNat / 3 / s.w.toNat ≤ s.b.toNat / 3 := Nat.div_le_self _ _
    have hb := s.b.isLt
    have hexec := (execAddr_idle hp).trans (if_neg (Nat.ne_of_gt hw))
    refine ⟨_, hexec, ?_, ?_, ?_, rfl, rfl, rfl, rfl, rfl, rfl, rfl, rfl, rfl, rfl, rfl, rfl, rfl, rfl, rfl,
      fun _ => rfl, fun _ => rfl⟩
    · exact Nat.mod_eq_of_lt (hx.trans s.w.isLt)
    · exact Nat.mod_eq_of_lt (by omega)
    · exact Nat.mod_eq_of_lt (by omega)
  · exact (execAddr_idle hp).trans (if_pos hw)
  · exact cmdWriteWhileIdleRunsTheDecodedCommand s v rest .addr hp hh (decode_addr hv)

/-! ### Where a bit step stops -/

/-- The outcome is a value, or an access that reached beyond a memory (20_memory.md R74). -/
inductive StopsOnlyBeyondMemory {α : Type} : Res α → Prop where
  | next (a : α) : StopsOnlyBeyondMemory (.next a)
  | img (a : Nat) : StopsOnlyBeyondMemory (.fault (.imgOutOfRange a))
  | pay (k : Nat) : StopsOnlyBeyondMemory (.fault (.payOutOfRange k))

theorem StopsOnlyBeyondMemory.andThen {α β : Type} {r : Res α} {k : α → Res β} (h : StopsOnlyBeyondMemory r)
    (hk : ∀ a, StopsOnlyBeyondMemory (k a)) : StopsOnlyBeyondMemory (andThen r k) := by
  cases h with
  | next a => exact hk a
  | img a => exact .img a
  | pay k => exact .pay k

theorem loadPay_stops (k : Nat) (s : State) : StopsOnlyBeyondMemory (loadPay k s) := by
  simp only [loadPay]
  split_ifs
  · exact .next _
  · exact .pay k

theorem storePay_stops (k : Nat) (v : Byte) (s : State) : StopsOnlyBeyondMemory (storePay k v s) := by
  simp only [storePay]
  split_ifs
  · exact .next _
  · exact .pay k

section
variable {s : State}

/-- A frame bit below the capacity names a cell of the image, so that only the memory's size can stop its write. -/
theorem putFrameBit_stops {b : Nat} (bit : Bool) (hm : s.img.wf = true) (hb : b < s.w.toNat * s.h.toNat * 3) :
    StopsOnlyBeyondMemory (putFrameBit b bit s) := by
  have hw := width_pos_of_lt hb
  rw [putFrameBit_eq b bit hm, if_neg (Nat.ne_of_gt hw), if_pos hb]
  split_ifs
  · exact .next _
  · exact .img _

theorem getFrameBit_stops {b : Nat} (hb : b < s.w.toNat * s.h.toNat * 3) :
    StopsOnlyBeyondMemory (getFrameBit b s) := by
  have hw := width_pos_of_lt hb
  rw [getFrameBit_eq, if_neg (Nat.ne_of_gt hw), if_pos hb]
  split_ifs
  · exact .next _
  · exact .img _

variable (hb : s.cursor.toNat < s.w.toNat * s.h.toNat * 3)
include hb

theorem encodePrefixStep_stops (hm : s.img.wf = true) : StopsOnlyBeyondMemory (encodePrefixStep s) := by
  refine (putFrameBit_stops _ hm hb).andThen fun s' => ?_
  dsimp only
  split_ifs <;> exact .next _

theorem encodePayloadStep_stops (hm : s.img.wf = true) : StopsOnlyBeyondMemory (encodePayloadStep s) := by
  refine (loadPay_stops _ s).andThen fun v => (putFrameBit_stops _ hm hb).andThen fun s' => ?_
  dsimp only
  split_ifs <;> exact .next _

theorem decodePrefixStep_stops : StopsOnlyBeyondMemory (decodePrefixStep s) := by
  refine (getFrameBit_stops hb).andThen fun bit => ?_
  dsimp only
  split_ifs <;> exact .next _

theorem decodePayloadStep_stops : StopsOnlyBeyondMemory (decodePayloadStep s) := by
  refine (getFrameBit_stops hb).andThen fun bit => ?_
  dsimp only
  split_ifs
  · exact .next _
  · exact (storePay_stops _ _ s).andThen fun s' => .next _

end

/-- Under the invariant a busy core has a row of the sequencer's table and a cursor inside the image. -/
theorem bitStep_stops {s : State} (h : s.Inv) (hb : s.phase ≠ .idle) : StopsOnlyBeyondMemory (bitStep s) := by
  have hcap := h.seq.cursorInImage hb
  have hm := h.data.imgWf
  cases hp : s.phase with
  | idle => exact absurd hp hb
  | prefixPhase =>
    have hi := h.prefixPhase hp
    have hrow : s.cursor.toNat < 32 := Nat.lt_succ_of_le hi.cursor
    simp only [bitStep, hp, prefixBits, if_pos hrow]
    rcases hi.op with ho | ho
    · rw [if_pos ho]
      exact encodePrefixStep_stops hcap hm
    · rw [if_neg (op_ne_encode ho), if_pos ho]
      exact decodePrefixStep_stops hcap
  | payloadPhase =>
    have hi := h.payloadPhase hp
    have hrow : 32 ≤ s.cursor.toNat ∧ s.cursor.toNat < 32 + 8 * s.len.toNat := ⟨hi.cursorGe, hi.cursorLt⟩
    simp only [bitStep, hp, prefixBits, frameBitLength, if_pos hrow]
    rcases hi.op with ho | ho
    · rw [if_pos ho]
      exact encodePayloadStep_stops hcap hm
    · rw [if_neg (op_ne_encode ho), if_pos ho]
      exact decodePayloadStep_stops hcap

/-! ### Where a step stops -/

/-- On an idle block only `ADDR` with `W = 0` has no step (40_bit_addressor.md R124). -/
theorem exec_idle_cases {i : Instr} {s : State} (hp : s.phase = .idle) :
    (∃ t, exec i s = .next t) ∨ (i = .addr ∧ s.w.toNat = 0 ∧ exec i s = .refused .addrWidthZero) := by
  cases i with
  | addr =>
    by_cases hw : s.w.toNat = 0
    · exact .inr ⟨rfl, hw, (execAddr_idle hp).trans (if_pos hw)⟩
    · exact .inl ⟨_, (execAddr_idle hp).trans (if_neg hw)⟩
  | encode => exact .inl ⟨_, execEncode_idle hp⟩
  | decode => exact .inl ⟨_, execDecode_idle hp⟩

theorem startCommand_idle_cases {v : Nat} {s : State} (hp : s.phase = .idle) :
    (∃ t, startCommand v s = .next t) ∨
      (v % 4 = 0 ∧ s.w.toNat = 0 ∧ startCommand v s = .refused .addrWidthZero) := by
  cases hd : decode (commandWord v) with
  | command i =>
    simp only [startCommand, hd]
    rcases exec_idle_cases (i := i) hp with ht | ⟨rfl, hw, hr⟩
    · exact .inl ht
    · exact .inr ⟨mod_four_of_decode_addr hd, hw, hr⟩
  | reservedOpcode =>
    simp only [startCommand, hd]
    exact .inl ⟨_, whenIdle_idle _ hp⟩

/-- A write of the host either starts a command or goes through. -/
theorem hostWrite_start_or_next (i : RegIndex) (v : Nat) (s : State) :
    (i = 0x0 ∧ hostWrite i v s = startCommand v s) ∨ ∃ t, hostWrite i v s = .next t := by
  cases hr : Reg.ofIndex i with
  | none => exact .inr ⟨s, by simp only [hostWrite, hr]⟩
  | some r =>
    by_cases hc : r = .cmd
    · subst hc
      obtain rfl := Reg.ofIndex_eq_some.1 hr
      exact .inl ⟨rfl, rfl⟩
    · exact .inr ⟨_, hostWrite_reg v s hr hc⟩

/-- Whose turn a step is, whatever its outcome. -/
theorem step_turn (s : State) :
    (s.phase ≠ .idle ∧ step s = bitStep s) ∨ step s = .next s ∨
      ∃ a rest, s.host = a :: rest ∧ (a.waits = true → s.phase = .idle) ∧ step s = hostMove a (s.setHost rest) := by
  by_cases hp : s.phase = .idle
  · cases hh : s.host with
    | nil => exact .inr (.inl (by rw [step_of_nil hh, isBusy_of_idle hp, if_neg Bool.false_ne_true]))
    | cons a rest => exact .inr (.inr ⟨a, rest, rfl, fun _ => hp, step_of_taken hh (.inr hp)⟩)
  · by_cases hw : hostWaits s.host = true
    · exact .inl ⟨hp, step_busy hp hw⟩
    · cases hh : s.host with
      | nil => exact absurd (hh ▸ rfl) hw
      | cons a rest =>
        have hfree : a.waits = false := by simpa [hh, hostWaits] using hw
        exact .inr (.inr ⟨a, rest, rfl, by simp [hfree], step_of_taken hh (.inl hfree)⟩)

/-- Every outcome of a step from a state that meets the invariant: a next state, or a stop with its cause
(93_implementation_defined.md U1, U10). -/
inductive StepOutcome (s : State) : Res State → Prop where
  | next (t : State) : StepOutcome s (.next t)
  | addrWidthZero (v : Nat) (rest : List HostAction) (hp : s.phase = .idle) (hh : s.host = .wr 0x0 v :: rest)
      (hv : v % 4 = 0) (hw : s.w.toNat = 0) : StepOutcome s (.refused .addrWidthZero)
  | core (f : Fault) (hb : s.phase ≠ .idle) (hd : ¬ s.busyDuty) (hf : f ≠ .noSequencerRow) : StepOutcome s (.fault f)
  | imgWrite (p : Nat) (bytes : List Byte) (rest : List HostAction) (hh : s.host = .imgWrite p bytes :: rest)
      (hf : fits s.params.imgBytes p bytes.length = false) : StepOutcome s (.fault (.imgOutOfRange p))
  | imgRead (p n : Nat) (rest : List HostAction) (hh : s.host = .imgRead p n :: rest)
      (hf : fits s.params.imgBytes p n = false) : StepOutcome s (.fault (.imgOutOfRange p))
  | payWrite (p : Nat) (bytes : List Byte) (rest : List HostAction) (hh : s.host = .payWrite p bytes :: rest)
      (hf : fits s.params.payBytes p bytes.length = false) : StepOutcome s (.fault (.payOutOfRange p))
  | payRead (p n : Nat) (rest : List HostAction) (hh : s.host = .payRead p n :: rest)
      (hf : fits s.params.payBytes p n = false) : StepOutcome s (.fault (.payOutOfRange p))

/-- The core's turn, with any moves of the host pending. -/
theorem stepOutcome_bitStep {s : State} (h : s.Inv) (hb : s.phase ≠ .idle) (l : List HostAction) :
    StepOutcome s (bitStep (s.setHost l)) := by
  have hinv : (s.setHost l).Inv := h.of_other_host l s.seen s.draws
  have hduty {f : Fault} (hs : bitStep (s.setHost l) = .fault f) : ¬ s.busyDuty := fun hd => by
    cases hs.symm.trans (bitStep_busy hinv hd hb)
  have hstops := bitStep_stops hinv hb
  generalize bitStep (s.setHost l) = r at hduty hstops
  cases hstops with
  | next t => exact .next t
  | img a | pay k => exact .core _ hb (hduty rfl) (by simp)

theorem stepOutcome_hostMove {s : State} {a : HostAction} {rest : List HostAction} (h : s.Inv)
    (hh : s.host = a :: rest) (hw : a.waits = true → s.phase = .idle) :
    StepOutcome s (hostMove a (s.setHost rest)) := by
  cases a with
  | wr i v =>
    rcases hostWrite_start_or_next i v (s.setHost rest) with ⟨rfl, hstart⟩ | ⟨t, ht⟩
    · have hp : s.phase = .idle := hw rfl
      rw [hostMove, hstart]
      rcases startCommand_idle_cases (v := v) (s := s.setHost rest) hp with ⟨t, ht⟩ | ⟨hv, hz, hr⟩
      · exact ht ▸ .next t
      · exact hr ▸ .addrWidthZero v rest hp hh hv hz
    · rw [hostMove, ht]
      exact .next t
  | imgWrite p bytes =>
    simp only [hostMove, storeImgBytes]
    split_ifs with hf
    · exact .next _
    · exact .imgWrite p bytes rest hh (Bool.eq_false_iff.2 hf)
  | payWrite p bytes =>
    simp only [hostMove, storePayBytes]
    split_ifs with hf
    · exact .next _
    · exact .payWrite p bytes rest hh (Bool.eq_false_iff.2 hf)
  | imgRead p n =>
    simp only [hostMove, loadImgBytes]
    split_ifs with hf
    · exact .next _
    · exact .imgRead p n rest hh (Bool.eq_false_iff.2 hf)
  | payRead p n =>
    simp only [hostMove, loadPayBytes]
    split_ifs with hf
    · exact .next _
    · exact .payRead p n rest hh (Bool.eq_false_iff.2 hf)
  | coreStep =>
    simp only [hostMove]
    split_ifs with hb
    · exact stepOutcome_bitStep h (isBusy_iff.1 hb) rest
    · exact .next _
  | rd | wait | reset => exact .next _

theorem stepOutcome_step {s : State} (h : s.Inv) : StepOutcome s (step s) := by
  rcases step_turn s with ⟨hb, hs⟩ | hs | ⟨a, rest, hh, hw, hs⟩ <;> rw [hs]
  · exact stepOutcome_bitStep h hb s.host
  · exact .next s
  · exact stepOutcome_hostMove h hh hw

/-- Settles O27: by the outcomes of a step under the invariant. -/
theorem onlyTheSpecsStopsAreReachable : Obligations.OnlyTheSpecsStopsAreReachable := by
  intro s h
  have hout := stepOutcome_step h
  constructor
  · intro r hr
    rw [hr] at hout
    cases hout with
    | addrWidthZero v rest hp hh hv hw => exact ⟨rfl, hp, hw, v, rest, hh, hv⟩
  · intro f hs
    rw [hs] at hout
    cases hout with
    | core f hb hd hf => exact .inl ⟨hb, hd, hf⟩
    | imgWrite p bytes rest hh hf => exact .inr (.inl ⟨p, bytes, rest, hh, rfl, hf⟩)
    | imgRead p n rest hh hf => exact .inr (.inr (.inl ⟨p, n, rest, hh, rfl, hf⟩))
    | payWrite p bytes rest hh hf => exact .inr (.inr (.inr (.inl ⟨p, bytes, rest, hh, rfl, hf⟩)))
    | payRead p n rest hh hf => exact .inr (.inr (.inr (.inr ⟨p, n, rest, hh, rfl, hf⟩)))

/-- Settles O15: the rows below the height are those of the indexes below the capacity, the invariant keeps the cursor
there, and a busy core refuses nothing. -/
theorem addressesOfCommandsAreInsideTheImage : Obligations.AddressesOfCommandsAreInsideTheImage := by
  constructor
  · intro b wd h t hw hb ht
    obtain ⟨hx, hc, -⟩ := (addr_eq_some_iff hw).1 ht
    exact ⟨hx, (addr_row_lt_iff hw ht h).2 hb, hc⟩
  · intro s h hb _
    obtain ⟨hrefused, -⟩ := onlyTheSpecsStopsAreReachable s h
    have hnone (r : Refusal) : step s ≠ .refused r := fun hr => by
      obtain ⟨-, hp, -⟩ := hrefused r hr
      exact hb hp
    exact ⟨h.seq.cursorInImage hb, hnone _, hnone _⟩

end Sys2Proof.Machine

/-! # `ENCODE`: its start step, its bit steps, its end state (41_encoder.md), and that a command in progress goes on to
its end (R153, R154) -/

namespace Sys2Proof.Machine

/-! ### The end state of `ENCODE` -/

/-- The first check of 41_encoder.md R142 that fails decides the kind. -/
theorem encodeCheck_eq (s : State) :
    encodeCheck s =
      if s.imgOk = false then some .imageLoadError
      else if s.payOk = false then some .payloadReadError
      else if 2 ^ 32 - 1 < s.plen.toNat then some .payloadTooLargeError
      else if s.w.toNat * s.h.toNat * 3 < 32 + 8 * s.plen.toNat then some .insufficientCapacityError
      else none := rfl

section
variable {s : State}

theorem encodeEnd_of_check_some {k : ResultKind} (hc : encodeCheck s = some k) (rest : List HostAction) :
    EncodeRejected k s (encodeEnd (s.setHost rest)) := by
  rw [encodeEnd_rejected (s := s.setHost rest) hc]
  exact ⟨rfl, rfl, rfl, rfl⟩

theorem encodeEnd_of_check_none (hm : s.img.wf = true) (hc : encodeCheck s = none) (rest : List HostAction) :
    EncodeAccepted s (encodeEnd (s.setHost rest)) := by
  rw [encodeEnd_accepted (s := s.setHost rest) hc]
  exact
    { status := (encodeAt_end rfl).2
      len := toNat_acceptedLen hc
      cursor := encodeAt_cursor (s := s.setHost rest) hc le_rfl
      frame := fun i hi => (framedImg_read_cell s.params s.offeredBit hm hi).trans (withLsb_eq _ _)
      rest := fun a ha => framedImg_read_rest s.params s.offeredBit hm ha }

theorem encodeEnd_op_acc (s : State) : (encodeEnd s).op = encode .encode ∧ (encodeEnd s).acc = s.acc := by
  cases hc : encodeCheck s with
  | some k => rw [encodeEnd_rejected hc]; exact ⟨rfl, rfl⟩
  | none => rw [encodeEnd_accepted hc]; exact ⟨rfl, rfl⟩

/-- 41_encoder.md R160: where `ENCODE` ends is the result of its big-step function. -/
theorem encodeEnd_bigStep (hm : s.img.wf = true) (rest : List HostAction) :
    EncodeEnd s (encodeEnd (s.setHost rest)) := by
  obtain ⟨hkept, hpay, -⟩ := encodeEnd_frame (s.setHost rest)
  obtain ⟨hop, hacc⟩ := encodeEnd_op_acc (s.setHost rest)
  refine ⟨{ hkept with }, encodeEnd_idle _, hop, hpay, hacc, ?_⟩
  have hc := encodeCheck_eq s
  split_ifs at hc ⊢
  · exact encodeEnd_of_check_some hc rest
  · exact encodeEnd_of_check_some hc rest
  · exact encodeEnd_of_check_some hc rest
  · exact encodeEnd_of_check_some hc rest
  · exact encodeEnd_of_check_none hm hc rest

/-- `ENCODE` is busy after its start step and after each bit step but the last. -/
theorem run_encode_busy {v n : Nat} {rest : List HostAction} (hm : s.img.wf = true) (hp : s.phase = .idle)
    (hh : s.host = .wr 0x0 v :: rest) (hd : decode (commandWord v) = .command .encode)
    (hw : hostWaits rest = true) (hduty : s.encodeDuty) (hn : n + 1 < encodeSteps s) :
    ∃ u, Host.Core.run core (n + 1) s = .next u ∧ u.phase ≠ .idle := by
  have hstart := (step_startEncode hp hh hd).trans (execEncode_idle hp)
  cases hc : encodeCheck (s.setHost rest) with
  | some k =>
    have hk : encodeSteps s = 1 := encodeSteps_rejected hc
    omega
  | none =>
    rw [hc] at hstart
    have hk : encodeSteps s = 32 + 8 * s.plen.toNat + 1 := encodeSteps_accepted hc
    have hlt : n < 32 + 8 * s.plen.toNat := by omega
    obtain ⟨himg, hpay⟩ := State.encodeDuty.held (s := s.setHost rest) hduty hc
    refine ⟨encodeAt (s.setHost rest) n, ?_, encodeAt_busy hlt⟩
    rw [run_succ n hstart, ← encodeAt_zero]
    exact run_encodeAt hc hm himg hpay hw hlt.le

end

/-- Settles O41: by the run of `ENCODE` up to its end and the end state's fields. -/
theorem encodeReachesItsBigStepResult : Obligations.EncodeReachesItsBigStepResult := by
  intro s v rest hm hp hh hd hw hduty
  obtain ⟨-, -, hhost⟩ := encodeEnd_frame (s.setHost rest)
  refine ⟨⟨_, run_encode hm hp hh hd hw hduty, hhost, encodeEnd_bigStep hm rest⟩, fun n hn hlt => ?_⟩
  obtain ⟨m, rfl⟩ := Nat.exists_eq_add_of_le' hn
  exact run_encode_busy hm hp hh hd hw hduty hlt

/-! ### A command in progress -/

/-- Settles O47: each bit step moves the cursor on, which the longest frame bounds. -/
theorem everyCommandTerminates : Obligations.EveryCommandTerminates := by
  intro s hinv hd _ hw
  obtain ⟨k, u, hk, hend⟩ := exists_endsAfter (m := 2 ^ 35 + 24) hinv hd fun _ => Nat.le_add_left _ _
  obtain ⟨hrun, -⟩ := hend.run hw
  exact ⟨k, u, hk, hrun, hend.phase⟩

/-- Settles O26: the step is the bit step, which the duties let through. -/
theorem commandInProgressNeverStops : Obligations.CommandInProgressNeverStops := by
  intro s hinv hd hb hw
  exact ⟨bitNext s, (step_busy hb hw).trans (bitStep_busy hinv hd hb)⟩

/-! ### The start step -/

theorem decode_encode_of_mod_four {v : Nat} (h : v % 4 = 1) : decode (commandWord v) = .command .encode := by
  rw [commandWord_mod_four, h]
  rfl

/-- A failing check writes `OP` and `STATUS.CODE` only. -/
theorem exec_encode_rejected {s : State} {k : ResultKind} (hp : s.phase = .idle) (hc : encodeCheck s = some k) :
    exec .encode s = .next { s with op := 1, status := k } := by
  rw [exec, execEncode_idle hp, hc]
  simp [State.finish, State.setOp, hp, encode]

theorem exec_encode_accepted {s : State} (hp : s.phase = .idle) (hc : encodeCheck s = none) :
    exec .encode s = .next
      { s with op := 1, len := s.plen.setWidth 32, cursor := 0, phase := .prefixPhase, status := .busy } := by
  rw [exec, execEncode_idle hp, hc]
  rfl

/-- Settles O16: by the check that decides the start step in each branch. -/
theorem encodeStartStepChecksInOrder : Obligations.EncodeStartStepChecksInOrder := by
  intro s hp
  refine ⟨fun hi => ?_, fun hi hpo => ?_, fun hi hpo hl => ?_, fun hi hpo hl hf => ?_, fun hi hpo hl hf => ?_,
    fun v rest hh hv => ?_⟩
  · exact exec_encode_rejected hp (by rw [encodeCheck_eq, if_pos hi])
  · exact exec_encode_rejected hp (by rw [encodeCheck_eq, if_neg (by simp [hi]), if_pos hpo])
  · exact exec_encode_rejected hp (by
      rw [encodeCheck_eq, if_neg (by simp [hi]), if_neg (by simp [hpo]), if_pos hl])
  · exact exec_encode_rejected hp (by
      rw [encodeCheck_eq, if_neg (by simp [hi]), if_neg (by simp [hpo]), if_neg (Nat.not_lt.2 hl), if_pos hf])
  · have hc : encodeCheck s = none := encodeCheck_none.2 ⟨hi, hpo, hl, hf⟩
    exact ⟨_, toNat_acceptedLen hc, exec_encode_accepted hp hc⟩
  · exact cmdWriteWhileIdleRunsTheDecodedCommand s v rest .encode hp hh (decode_encode_of_mod_four hv)

/-! ### `SetLsb` -/

/-- `SetLsb` keeps all of a byte but its bit 0. -/
theorem withLsb_toNat_div_two (old : Byte) (bit : Bool) : (withLsb old bit).toNat / 2 = old.toNat / 2 := by
  refine Nat.eq_of_testBit_eq fun i => ?_
  simp only [← Nat.testBit_succ, BitVec.testBit_toNat, withLsb_getLsbD, Nat.succ_ne_zero, if_false]

/-- A triple inside the image is the address of a frame bit, and `SetLsb` through it writes that frame bit. -/
theorem setLsb_inside {s : State} {t : Triple} (bit : Bool) (hm : s.img.wf = true) (hx : t.x < s.w.toNat)
    (hy : t.y < s.h.toNat) (hc : t.c ≤ 2)
    (hf : fits s.params.imgBytes (lin s { t with c := 0 }) s.params.nch = true) :
    setLsb t bit s = .next (s.setImg (s.img.write (lin s t) (withLsb (s.img.read (lin s t)) bit))) := by
  have hw : 0 < s.w.toNat := Nat.zero_lt_of_lt hx
  obtain ⟨b, hb⟩ : ∃ b, b = 3 * (t.y * s.w.toNat + t.x) + t.c := ⟨_, rfl⟩
  have haddr : addr b s.w.toNat = some t := (addr_eq_some_iff hw).2 ⟨hx, hc, hb⟩
  have hput : putFrameBit b bit s = setLsb t bit s := by simp only [putFrameBit, haddr]
  have hcap : b < s.w.toNat * s.h.toNat * 3 := (addr_row_lt_iff hw haddr _).1 hy
  obtain ⟨hlin, -⟩ := frameBitAddressesAreDense s b t haddr
  have hpixel : lin s { t with c := 0 } = b / 3 * s.params.nch := by
    have hdiv : b / 3 = t.y * s.w.toNat + t.x := by omega
    rw [hdiv]
    rfl
  rw [hpixel] at hf
  rw [← hput, putFrameBit_eq b bit hm, if_neg (Nat.ne_of_gt hw), if_pos hcap, if_pos hf, cellAddress, ← hlin]

/-- Settles O19: one byte is stored, with the bits that `withLsb` gives it. -/
theorem setLsbReplacesOneBit : Obligations.SetLsbReplacesOneBit := by
  intro s t bit hm hx hy hc hf
  have hread (a : Nat) := Memory.read_write (lin s t) (withLsb (s.img.read (lin s t)) bit) a hm
  have hcell := (hread (lin s t)).trans (if_pos rfl)
  have hhalf := withLsb_toNat_div_two (s.img.read (lin s t)) bit
  refine ⟨_, setLsb_inside bit hm hx hy hc hf, Memory.wf_write _ _ hm, ?_, fun i hi => ?_, ?_, ?_,
    fun a ha => (hread a).trans (if_neg ha)⟩ <;> rw [hcell]
  · exact withLsb_eq _ _
  · rw [withLsb_getLsbD, if_neg (Nat.ne_of_gt hi)]
  · omega
  · omega

/-! ### The bit steps -/

theorem bitOf_eq_shiftRight {w : Nat} (v : BitVec w) (i : Nat) : bitOf v i = decide (v.toNat >>> i % 2 = 1) := by
  rw [bitOf, ← BitVec.testBit_toNat, Nat.testBit_eq_decide_div_mod_eq, Nat.shiftRight_eq_div_pow]

/-- What holds of the next state of every bit step of `ENCODE`; `bit` is the frame bit it writes. -/
structure EncodeBitWritten (s t : State) (bit : Bool) : Prop where
  kept : OperandsKept s t
  host : t.host = s.host
  op : t.op = s.op
  len : t.len = s.len
  acc : t.acc = s.acc
  pay : t.pay = s.pay
  cursor : t.cursor.toNat = s.cursor.toNat + 1
  img : ∀ a, t.img.read a =
    if a = cellAddress s.params.nch s.cursor.toNat then (s.img.read a &&& 0xFE#8) ||| (if bit then 1#8 else 0#8)
    else s.img.read a

/-- Only a `DECODE` uses `ACC` (10_state.md R34). -/
theorem State.Inv.acc_of_encode {s : State} (h : s.Inv) (ho : s.op = encode .encode) : s.acc = 0 :=
  h.data.accClear fun hd => op_ne_decode ho hd.2

theorem bitStep_encodeBitWritten {s t : State} (h : s.Inv) (hb : s.phase ≠ .idle) (ho : s.op = encode .encode)
    (hs : bitStep s = .next t) : EncodeBitWritten s t s.encodeBit := by
  have hm := h.data.imgWf
  have hf := bitStep_frame hs
  exact
    { kept := hf.kept
      host := hf.host
      op := hf.op
      len := bitStep_encode_len hm hs ho
      acc := ((bitStep_inv h hs).acc_of_encode (hf.op.trans ho)).trans (h.acc_of_encode ho).symm
      pay := hf.encodePay ho
      cursor := by rw [hf.cursor, h.seq.toNat_setCursor_succ hb]
      img := fun a => by
        rw [bitStep_encode_img hm hs ho, State.imgWith_read _ _ a hm, withLsb_eq]
        split_ifs with ha <;> simp only [ha] }

section
variable {s : State}

theorem encodePrefixNext_more (h : s.cursor.toNat ≠ 31) :
    (encodePrefixNext s).phase = s.phase ∧ (encodePrefixNext s).status = s.status := by
  simp [encodePrefixNext, h]

theorem encodePrefixNext_empty (h : s.cursor.toNat = 31) (h0 : s.len.toNat = 0) :
    (encodePrefixNext s).phase = .idle ∧ (encodePrefixNext s).status = .ok := by
  simp only [encodePrefixNext, if_pos h, if_pos h0]
  exact ⟨rfl, rfl⟩

theorem encodePrefixNext_payload (h : s.cursor.toNat = 31) (h0 : s.len.toNat ≠ 0) :
    (encodePrefixNext s).phase = .payloadPhase ∧ (encodePrefixNext s).status = s.status := by
  simp only [encodePrefixNext, if_pos h, if_neg h0]
  exact ⟨rfl, rfl⟩

theorem encodePayloadNext_more (h : s.cursor.toNat + 1 ≠ 32 + 8 * s.len.toNat) :
    (encodePayloadNext s).phase = s.phase ∧ (encodePayloadNext s).status = s.status := by
  simp only [encodePayloadNext, if_neg h]
  exact ⟨rfl, rfl⟩

theorem encodePayloadNext_last (h : s.cursor.toNat + 1 = 32 + 8 * s.len.toNat) :
    (encodePayloadNext s).phase = .idle ∧ (encodePayloadNext s).status = .ok := by
  simp only [encodePayloadNext, if_pos h]
  exact ⟨rfl, rfl⟩

end

/-- Settles O20: what every bit step of `ENCODE` does, with a bit of `LEN`, and how its phase ends. -/
theorem encodePrefixStepWritesALengthBit : Obligations.EncodePrefixStepWritesALengthBit := by
  intro s h hp ho hw hh
  have hb : s.phase ≠ .idle := by simp [hp]
  have hstatus := (h.prefixPhase hp).status
  have hs : bitStep s = .next (encodePrefixNext s) :=
    (bitNext_encode ho).1 hp ▸ bitStep_prefixPhase (h.prefixPhase hp) hh
  obtain ⟨hkept, hhost, hop, hlen, hacc, hpay, hcursor, himg⟩ := bitStep_encodeBitWritten h hb ho hs
  refine ⟨_, (step_busy hb hw).trans hs, hkept, hhost, hop, hlen, hacc, hpay, hcursor, fun a => ?_, fun hlt => ?_,
    encodePrefixNext_empty, fun hlast hl => ?_⟩
  · simpa only [State.encodeBit, if_pos hp, bitOf_eq_shiftRight, decide_eq_true_eq] using himg a
  · exact hp ▸ hstatus ▸ encodePrefixNext_more hlt.ne
  · exact hstatus ▸ encodePrefixNext_payload hlast (Nat.ne_of_gt hl)

/-- Settles O21: what every bit step of `ENCODE` does, with a bit of `PAY`, and how its phase ends. -/
theorem encodePayloadStepWritesAPayloadBit : Obligations.EncodePayloadStepWritesAPayloadBit := by
  intro s h hp ho hw hh hpayHeld
  have hb : s.phase ≠ .idle := by simp [hp]
  have hlater : s.phase ≠ .prefixPhase := by simp [hp]
  have hstatus := (h.payloadPhase hp).status
  have hs : bitStep s = .next (encodePayloadNext s) :=
    (bitNext_encode ho).2 hlater ▸ bitStep_payloadPhase (h.payloadPhase hp) hh hpayHeld
  obtain ⟨hkept, hhost, hop, hlen, hacc, hpay, hcursor, himg⟩ := bitStep_encodeBitWritten h hb ho hs
  refine ⟨_, (step_busy hb hw).trans hs, hkept, hhost, hop, hlen, hacc, hpay, hcursor, fun a => ?_, fun hlt => ?_,
    encodePayloadNext_last⟩
  · simpa only [State.encodeBit, if_neg hlater, bitOf_eq_shiftRight, decide_eq_true_eq] using himg a
  · exact hp ▸ hstatus ▸ encodePayloadNext_more hlt.ne

end Sys2Proof.Machine

/-! # `DECODE`: its start step, its bit steps, its end state (42_decoder.md), and that it reads no more of the image
than bit 0 of the frame's cells (R184) -/

namespace Sys2Proof.Machine

/-! ### The start step -/

theorem decode_decode_of_mod_four {v : Nat} (h : v % 4 = 2) : decode (commandWord v) = .command .decode := by
  rw [commandWord_mod_four, h]
  rfl

/-- The first check of 42_decoder.md R172 that fails decides the kind. -/
theorem decodeCheck_eq (s : State) :
    decodeCheck s =
      if s.imgOk = false then some .imageLoadError
      else if s.w.toNat * s.h.toNat * 3 < 32 then some .invalidLengthError
      else none := rfl

/-- A failing check writes `OP` and `STATUS.CODE` only. -/
theorem exec_decode_rejected {s : State} {k : ResultKind} (hp : s.phase = .idle) (hc : decodeCheck s = some k) :
    exec .decode s = .next { s with op := 2, status := k } := by
  rw [exec, execDecode_idle hp, hc]
  simp [State.finish, State.setOp, hp, encode]

theorem exec_decode_accepted {s : State} (hp : s.phase = .idle) (hc : decodeCheck s = none) :
    exec .decode s = .next
      { s with op := 2, len := 0, cursor := 0, acc := 0, phase := .prefixPhase, status := .busy } := by
  rw [exec, execDecode_idle hp, hc]
  rfl

/-- Settles O17: by the check that decides the start step in each branch. -/
theorem decodeStartStepChecksInOrder : Obligations.DecodeStartStepChecksInOrder := by
  intro s hp
  refine ⟨fun hi => ?_, fun hi hf => ?_, fun hi hf => ?_, fun v rest hh hv => ?_⟩
  · exact exec_decode_rejected hp (by rw [decodeCheck_eq, if_pos hi])
  · exact exec_decode_rejected hp (by rw [decodeCheck_eq, if_neg (by simp [hi]), if_pos hf])
  · exact exec_decode_accepted hp (decodeCheck_none.2 ⟨hi, hf⟩)
  · exact cmdWriteWhileIdleRunsTheDecodedCommand s v rest .decode hp hh (decode_decode_of_mod_four hv)

/-! ### The bit steps -/

section
variable {s : State}

/-- Under the size duty the sequencer's row for a length bit of `DECODE` answers a next state. -/
theorem bitStep_decodePrefix (hp : s.phase = .prefixPhase) (ho : s.op = encode .decode) (hc : s.cursor.toNat < 32)
    (hh : s.imgHeld) (hcap : 32 ≤ s.w.toNat * s.h.toNat * 3) : bitStep s = .next (decodePrefixNext s) := by
  simp only [bitStep, hp, prefixBits, if_pos hc, if_neg (op_ne_encode ho), if_pos ho]
  exact decodePrefixStep_inside hh (hc.trans_le hcap)

/-- Under the size duties the sequencer's row for a payload bit of `DECODE` answers a next state. -/
theorem bitStep_decodePayload (hp : s.phase = .payloadPhase) (ho : s.op = encode .decode) (hge : 32 ≤ s.cursor.toNat)
    (hlt : s.cursor.toNat < 32 + 8 * s.len.toNat) (hh : s.imgHeld)
    (hcap : 32 + 8 * s.len.toNat ≤ s.w.toNat * s.h.toNat * 3) (hpay : s.payHeld s.len.toNat) :
    bitStep s = .next (decodePayloadNext s) := by
  have hbyte : fits s.params.payBytes ((s.cursor.toNat - 32) / 8) 1 = true :=
    fits_of_fits hpay (by omega) (.inr rfl)
  simp only [bitStep, hp, prefixBits, frameBitLength, if_pos (And.intro hge hlt), if_neg (op_ne_encode ho), if_pos ho]
  exact decodePayloadStep_inside hh (hlt.trans_le hcap) hbyte

theorem validateLength_acc (ha : s.acc = 0) : (validateLength s).acc = 0 := by
  simp only [validateLength, raise, done]
  split_ifs
  · exact ha
  · exact ha
  · rfl

/-- The block with one more bit of the length read, before the completed length is validated (42_decoder.md R176). -/
def State.prefixBitRead (s : State) : State :=
  (s.setLen (s.len ||| bitAt 32 (s.lsbAt s.cursor.toNat) s.cursor.toNat)).setCursor (s.cursor.toNat + 1)

theorem decodePrefixNext_more (h : s.cursor.toNat ≠ 31) : decodePrefixNext s = s.prefixBitRead := if_neg h

/-- With its last bit the completed length is validated (42_decoder.md R177). -/
theorem decodePrefixNext_last (h : s.cursor.toNat = 31) : decodePrefixNext s = validateLength s.prefixBitRead :=
  if_pos h

theorem decodePrefixNext_len : (decodePrefixNext s).len = s.prefixBitRead.len := by
  by_cases h : s.cursor.toNat = 31
  · obtain ⟨-, -, -, -, -, -, -, hlen⟩ := validateLength_frame s.prefixBitRead
    rw [decodePrefixNext_last h, hlen]
  · rw [decodePrefixNext_more h]

theorem decodePrefixNext_acc (ha : s.acc = 0) : (decodePrefixNext s).acc = 0 := by
  by_cases h : s.cursor.toNat = 31
  · rw [decodePrefixNext_last h]
    exact validateLength_acc ha
  · rw [decodePrefixNext_more h]
    exact ha

theorem decodePayloadAdvance_more_phase {n : Nat} (h : n + 1 ≠ 32 + 8 * s.len.toNat) :
    (decodePayloadAdvance n s).phase = s.phase ∧ (decodePayloadAdvance n s).status = s.status := by
  rw [decodePayloadAdvance_more h]
  exact ⟨rfl, rfl⟩

theorem decodePayloadAdvance_last_phase {n : Nat} (h : n + 1 = 32 + 8 * s.len.toNat) :
    (decodePayloadAdvance n s).phase = .idle ∧ (decodePayloadAdvance n s).status = .ok := by
  rw [decodePayloadAdvance_last h]
  exact ⟨rfl, rfl⟩

theorem decodePayloadNext_more (h : s.cursor.toNat + 1 ≠ 32 + 8 * s.len.toNat) :
    (decodePayloadNext s).phase = s.phase ∧ (decodePayloadNext s).status = s.status := by
  simp only [decodePayloadNext]
  split_ifs
  · exact decodePayloadAdvance_more_phase h
  · exact decodePayloadAdvance_more_phase h

theorem decodePayloadNext_last (h : s.cursor.toNat + 1 = 32 + 8 * s.len.toNat) :
    (decodePayloadNext s).phase = .idle ∧ (decodePayloadNext s).status = .ok := by
  simp only [decodePayloadNext]
  split_ifs
  · exact decodePayloadAdvance_last_phase h
  · exact decodePayloadAdvance_last_phase h

theorem decodePayloadNext_len : (decodePayloadNext s).len = s.len := by
  simp only [decodePayloadNext]
  split_ifs <;> simp

/-- Before its eighth bit a payload byte gathers in `ACC` (42_decoder.md R179). -/
theorem decodePayloadNext_partial (h : (s.cursor.toNat - 32) % 8 < 7) :
    (decodePayloadNext s).acc = s.acc ||| bitAt 8 (s.lsbAt s.cursor.toNat) ((s.cursor.toNat - 32) % 8) ∧
      (decodePayloadNext s).pay = s.pay := by
  simp [decodePayloadNext, h]

/-- With its eighth bit a payload byte is stored (42_decoder.md R180). -/
theorem decodePayloadNext_byte (h : (s.cursor.toNat - 32) % 8 = 7) :
    (decodePayloadNext s).acc = 0 ∧
      (decodePayloadNext s).pay =
        s.pay.write ((s.cursor.toNat - 32) / 8) (s.acc ||| bitAt 8 (s.lsbAt s.cursor.toNat) 7) := by
  simp [decodePayloadNext, h]

end

/-- Settles O22: the frame of every bit step, the bit read into `LEN`, and how the phase ends with bit 31. -/
theorem decodePrefixStepReadsALengthBit : Obligations.DecodePrefixStepReadsALengthBit := by
  intro s h hp ho hw hh
  have hb : s.phase ≠ .idle := by simp [hp]
  have hi := h.prefixPhase hp
  have hc : s.cursor.toNat < 32 := Nat.lt_succ_of_le hi.cursor
  have hs := bitStep_decodePrefix hp ho hc hh hi.prefixFits
  have hf := bitStep_frame hs
  have hpay := (bitStep_decode_pay hi.imgWf hs ho).trans (if_pos (.inl hp))
  refine ⟨_, (step_busy hb hw).trans hs, hf.kept, hf.host, hf.op, decodePrefixNext_acc hi.acc, hf.decodeImg ho, hpay,
    ?_, ?_, fun hlt => ?_, fun hlast => ?_, fun hlast => ?_, fun hlast => ?_⟩
  · rw [hf.cursor, h.seq.toNat_setCursor_succ hb]
  · rw [decodePrefixNext_len]
    exact toNat_or_bitAt _ _ (hi.partialLength ho) hc
  · rw [decodePrefixNext_more hlt.ne]
    exact ⟨hp, hi.status⟩
  all_goals rw [decodePrefixNext_len, decodePrefixNext_last hlast]
  · intro hbig
    rw [validateLength_invalid (s := s.prefixBitRead) hbig]
    exact ⟨rfl, rfl⟩
  · intro hfit h0
    rw [validateLength_empty (s := s.prefixBitRead) hfit h0]
    exact ⟨rfl, rfl⟩
  · intro hfit h1
    rw [validateLength_valid (s := s.prefixBitRead) hfit h1]
    exact ⟨rfl, hi.status⟩

/-- Settles O23: the frame of every bit step, the bit read into `ACC`, the byte stored, and how the payload phase
ends. -/
theorem decodePayloadStepReadsAPayloadBit : Obligations.DecodePayloadStepReadsAPayloadBit := by
  intro s h hp ho hw hh hpayHeld
  have hb : s.phase ≠ .idle := by simp [hp]
  have hi := h.payloadPhase hp
  have hs := bitStep_decodePayload hp ho hi.cursorGe hi.cursorLt hh hi.frameFits hpayHeld
  have hf := bitStep_frame hs
  have hbit (hlt : (s.cursor.toNat - 32) % 8 < 8) :=
    toNat_or_bitAt s.acc (s.lsbAt s.cursor.toNat) (hi.partialByte ho) hlt
  refine ⟨_, (step_busy hb hw).trans hs, hf.kept, hf.host, hf.op, decodePayloadNext_len, hf.decodeImg ho, ?_,
    fun hj => ?_, fun hj => ?_, fun hlt => ?_, decodePayloadNext_last⟩
  · rw [hf.cursor, h.seq.toNat_setCursor_succ hb]
  · obtain ⟨hacc, hpay⟩ := decodePayloadNext_partial hj
    exact ⟨by rw [hacc, hbit (by omega)], fun k => by rw [hpay]⟩
  · obtain ⟨hacc, hpay⟩ := decodePayloadNext_byte hj
    rw [hj] at hbit
    refine ⟨hacc, ?_, fun k hk => ?_⟩
    · rw [hpay, Memory.read_write _ _ _ hi.payWf, if_pos rfl, hbit (by omega)]
    · rw [hpay, Memory.read_write _ _ _ hi.payWf, if_neg hk]
  · exact hp ▸ hi.status ▸ decodePayloadNext_more hlt.ne

/-! ### What has been read after some frame bits -/

/-- A word that holds the sum of the bits below `b` gets the next one by `| (bit << b)`. -/
theorem ofNat_gather_or_bitAt {w b : Nat} (g : Nat → Bool) (hb : b < w) :
    BitVec.ofNat w (gather g b) ||| bitAt w (g b) b = BitVec.ofNat w (gather g (b + 1)) := by
  have hle : ∀ n, n ≤ w → (BitVec.ofNat w (gather g n)).toNat = gather g n := fun n hn => by
    rw [BitVec.toNat_ofNat, Nat.mod_eq_of_lt ((gather_lt g n).trans_le (Nat.pow_le_pow_right two_pos hn))]
  have hlt : (BitVec.ofNat w (gather g b)).toNat < 2 ^ b := (hle b hb.le).trans_lt (gather_lt g b)
  apply BitVec.eq_of_toNat_eq
  rw [toNat_or_bitAt _ _ hlt hb, hle b hb.le, hle (b + 1) hb, gather]

/-- The length declared by the first `n` frame bits, of which it takes 32. -/
def State.lengthAfter (s : State) (n : Nat) : BitVec 32 := BitVec.ofNat 32 (gather s.lsbAt (min n 32))

/-- Bit `j` of the declared byte `k` (30_encoding.md R100). -/
def State.declaredBit (s : State) (k j : Nat) : Bool := s.lsbAt (32 + 8 * k + j)

/-- The bits that `n` payload bits hold of a byte not yet complete (42_decoder.md R180). -/
def State.partialAfter (s : State) (n : Nat) : Byte := BitVec.ofNat 8 (gather (s.declaredBit (n / 8)) (n % 8))

/-- `PAY` after the declared bytes `0` to `n - 1` were stored. -/
def State.storedPay (s : State) : Nat → Memory
  | 0 => s.pay
  | n + 1 => (s.storedPay n).write n (BitVec.ofNat 8 (s.declaredByte n))

section
variable (s : State)

theorem State.lengthAfter_succ {n : Nat} (hn : n < 32) :
    s.lengthAfter n ||| bitAt 32 (s.lsbAt n) n = s.lengthAfter (n + 1) := by
  rw [State.lengthAfter, State.lengthAfter, min_eq_left hn.le, min_eq_left (Nat.succ_le_of_lt hn),
    ofNat_gather_or_bitAt _ hn]

/-- After 32 frame bits the length is the declared one. -/
theorem State.toNat_lengthAfter {n : Nat} (hn : 32 ≤ n) : (s.lengthAfter n).toNat = s.declaredLength := by
  rw [State.lengthAfter, min_eq_right hn, BitVec.toNat_ofNat, Nat.mod_eq_of_lt (gather_lt _ _)]
  rfl

theorem State.lengthAfter_prefix {n : Nat} (hn : 32 ≤ n) : s.lengthAfter (n + 1) = s.lengthAfter n :=
  BitVec.eq_of_toNat_eq ((s.toNat_lengthAfter (hn.trans n.le_succ)).trans (s.toNat_lengthAfter hn).symm)

theorem State.declaredLength_lt : s.declaredLength < 2 ^ 32 := gather_lt _ _

theorem State.lsbAt_payload (n : Nat) : s.lsbAt (32 + n) = s.declaredBit (n / 8) (n % 8) := by
  rw [State.declaredBit, Nat.add_assoc, Nat.div_add_mod]

theorem State.partialAfter_or (n : Nat) :
    s.partialAfter n ||| bitAt 8 (s.lsbAt (32 + n)) (n % 8) =
      BitVec.ofNat 8 (gather (s.declaredBit (n / 8)) (n % 8 + 1)) := by
  rw [State.partialAfter, State.lsbAt_payload, ofNat_gather_or_bitAt _ (Nat.mod_lt n (by decide))]

theorem State.partialAfter_succ {n : Nat} (h : n % 8 < 7) :
    s.partialAfter n ||| bitAt 8 (s.lsbAt (32 + n)) (n % 8) = s.partialAfter (n + 1) := by
  have hdiv : (n + 1) / 8 = n / 8 := by omega
  have hmod : (n + 1) % 8 = n % 8 + 1 := by omega
  rw [State.partialAfter_or, State.partialAfter, hdiv, hmod]

/-- Between two bytes nothing of a byte is held. -/
theorem State.partialAfter_whole {n : Nat} (h : n % 8 = 0) : s.partialAfter n = 0 := by
  rw [State.partialAfter, h]
  rfl

theorem State.storedPay_succ {n : Nat} (h : n % 8 = 7) :
    (s.storedPay (n / 8)).write (n / 8) (s.partialAfter n ||| bitAt 8 (s.lsbAt (32 + n)) (n % 8)) =
      s.storedPay ((n + 1) / 8) := by
  have hdiv : (n + 1) / 8 = n / 8 + 1 := by omega
  rw [State.partialAfter_or, h, hdiv]
  rfl

theorem State.storedPay_wf (n : Nat) (hw : s.pay.wf = true) : (s.storedPay n).wf = true := by
  induction n with
  | zero => exact hw
  | succ n ih => exact Memory.wf_write _ _ ih

/-- The bytes stored are the declared ones, and every other byte stays (42_decoder.md R180). -/
theorem State.storedPay_read (n k : Nat) (hw : s.pay.wf = true) :
    (s.storedPay n).read k = if k < n then BitVec.ofNat 8 (s.declaredByte k) else s.pay.read k := by
  induction n with
  | zero => rfl
  | succ n ih =>
    rw [State.storedPay, Memory.read_write _ _ _ (s.storedPay_wf n hw), ih]
    rcases Nat.lt_trichotomy k n with hlt | rfl | hgt
    · rw [if_neg hlt.ne, if_pos hlt, if_pos (hlt.trans n.lt_succ_self)]
    · rw [if_pos rfl, if_pos k.lt_succ_self]
    · rw [if_neg hgt.ne', if_neg (by omega), if_neg (by omega)]

theorem State.toNat_declaredByte (k : Nat) : (BitVec.ofNat 8 (s.declaredByte k)).toNat = s.declaredByte k :=
  (BitVec.toNat_ofNat _ _).trans (Nat.mod_eq_of_lt (gather_lt _ _))

end

/-! ### A `DECODE` bit by bit -/

/-- The block in phase `p` of a `DECODE` started in `s` that has read `n` frame bits. -/
def decodeAt (s : State) (n : Nat) (p : Phase) : State :=
  { s with
    op := encode .decode
    len := s.lengthAfter n
    cursor := BitVec.ofNat 36 n
    acc := s.partialAfter (n - 32)
    pay := s.storedPay ((n - 32) / 8)
    phase := p
    status := .busy }

theorem decodeAt_zero (s : State) :
    decodeAt s 0 .prefixPhase = ((s.setOp (encode .decode)).accept 0).setAcc 0 := rfl

section
variable {s : State} {n : Nat}

theorem decodeAt_cursor (p : Phase) (hn : n ≤ 32 + 8 * s.declaredLength) : (decodeAt s n p).cursor.toNat = n := by
  have hl := s.declaredLength_lt
  exact (BitVec.toNat_ofNat n 36).trans (Nat.mod_eq_of_lt (by omega))

theorem prefixBitRead_decodeAt (hn : n < 32) :
    (decodeAt s n .prefixPhase).prefixBitRead = decodeAt s (n + 1) .prefixPhase := by
  have hcur : (decodeAt s n .prefixPhase).cursor.toNat = n := decodeAt_cursor _ (by omega)
  have hnow : n - 32 = 0 := by omega
  have hthen : n + 1 - 32 = 0 := by omega
  simp only [State.prefixBitRead, hcur]
  simp only [decodeAt, hnow, hthen, ← s.lengthAfter_succ hn]
  rfl

theorem decodePrefixNext_decodeAt (hn : n < 31) :
    decodePrefixNext (decodeAt s n .prefixPhase) = decodeAt s (n + 1) .prefixPhase := by
  have hcur : (decodeAt s n .prefixPhase).cursor.toNat = n := decodeAt_cursor _ (by omega)
  rw [decodePrefixNext_more (by omega), prefixBitRead_decodeAt (by omega)]

theorem decodePrefixNext_decodeAt_last :
    decodePrefixNext (decodeAt s 31 .prefixPhase) = validateLength (decodeAt s 32 .prefixPhase) := by
  rw [decodePrefixNext_last rfl, prefixBitRead_decodeAt (by decide)]

/-- A payload bit, before the end of the frame is looked for. -/
theorem decodePayloadNext_decodeAt (hge : 32 ≤ n) (hlt : n < 32 + 8 * s.declaredLength) :
    decodePayloadNext (decodeAt s n .payloadPhase) =
      decodePayloadAdvance n ((decodeAt s (n + 1) .payloadPhase).setCursor n) := by
  obtain ⟨m, rfl⟩ := Nat.exists_eq_add_of_le hge
  have hcur : (decodeAt s (32 + m) .payloadPhase).cursor.toNat = 32 + m := decodeAt_cursor _ hlt.le
  have hlen := s.lengthAfter_prefix hge
  have hm : 32 + m - 32 = m := by omega
  have hm' : 32 + m + 1 - 32 = m + 1 := by omega
  simp only [decodePayloadNext, hcur, hm]
  split_ifs with hj
  · have hacc := s.partialAfter_succ hj
    have hdiv : (m + 1) / 8 = m / 8 := by omega
    simp only [decodeAt, hlen, hm, hm', hdiv, ← hacc]
    rfl
  · have hlast : m % 8 = 7 := by omega
    have hpay := s.storedPay_succ hlast
    have hacc := s.partialAfter_whole (n := m + 1) (by omega)
    simp only [decodeAt, hlen, hm, hm', hacc, ← hpay]
    rfl

theorem decodePayloadAdvance_decodeAt_more (hge : 32 ≤ n) (h : n + 1 ≠ 32 + 8 * s.declaredLength) :
    decodePayloadAdvance n ((decodeAt s (n + 1) .payloadPhase).setCursor n) = decodeAt s (n + 1) .payloadPhase := by
  rw [← s.toNat_lengthAfter (hge.trans n.le_succ)] at h
  exact decodePayloadAdvance_more h

theorem decodePayloadAdvance_decodeAt_last (hge : 32 ≤ n) (h : n + 1 = 32 + 8 * s.declaredLength) :
    decodePayloadAdvance n ((decodeAt s (n + 1) .payloadPhase).setCursor n) =
      (decodeAt s (n + 1) .payloadPhase).finish .ok := by
  rw [← s.toNat_lengthAfter (hge.trans n.le_succ)] at h
  exact decodePayloadAdvance_last h

/-- A bit step of a declared payload that fits the image, under the size duties (42_decoder.md R182). -/
theorem bitStep_decodeAt_payload (hge : 32 ≤ n) (hlt : n < 32 + 8 * s.declaredLength) (hh : s.imgHeld)
    (hcap : 32 + 8 * s.declaredLength ≤ s.w.toNat * s.h.toNat * 3) (hpay : s.payHeld s.declaredLength) :
    bitStep (decodeAt s n .payloadPhase) =
      .next (decodePayloadAdvance n ((decodeAt s (n + 1) .payloadPhase).setCursor n)) := by
  have hcur : (decodeAt s n .payloadPhase).cursor.toNat = n := decodeAt_cursor _ hlt.le
  have hlen : (decodeAt s n .payloadPhase).len.toNat = s.declaredLength := s.toNat_lengthAfter hge
  rw [← hlen] at hcap hpay
  rw [← decodePayloadNext_decodeAt hge hlt]
  exact bitStep_decodePayload rfl rfl (by omega) (by omega) hh hcap hpay

/-- The bit steps of a declared payload lead to the end of the command with `OK` (42_decoder.md R181). -/
theorem endsAfter_decodeAt_payload {m : Nat} (hge : 32 ≤ n) (hm : n + m = 31 + 8 * s.declaredLength)
    (hh : s.imgHeld) (hcap : 32 + 8 * s.declaredLength ≤ s.w.toNat * s.h.toNat * 3)
    (hpay : s.payHeld s.declaredLength) :
    EndsAfter (m + 1) (decodeAt s n .payloadPhase)
      ((decodeAt s (32 + 8 * s.declaredLength) .payloadPhase).finish .ok) := by
  induction m generalizing n with
  | zero =>
    have hend : 32 + 8 * s.declaredLength = n + 1 := by omega
    rw [hend]
    have hs := bitStep_decodeAt_payload hge (by omega) hh hcap hpay
    rw [decodePayloadAdvance_decodeAt_last hge hend.symm] at hs
    exact .bit (by simp [decodeAt]) hs (.idle rfl)
  | succ m ih =>
    have hs := bitStep_decodeAt_payload hge (by omega) hh hcap hpay
    rw [decodePayloadAdvance_decodeAt_more hge (by omega)] at hs
    exact .bit (by simp [decodeAt]) hs (ih (by omega) (by omega))

theorem bitStep_decodeAt_prefix (hn : n < 32) (hh : s.imgHeld) (hcap : 32 ≤ s.w.toNat * s.h.toNat * 3) :
    bitStep (decodeAt s n .prefixPhase) = .next (decodePrefixNext (decodeAt s n .prefixPhase)) := by
  have hcur : (decodeAt s n .prefixPhase).cursor.toNat = n := decodeAt_cursor _ (by omega)
  exact bitStep_decodePrefix rfl rfl (by omega) hh hcap

/-- The bit steps of the length lead to the validation of the completed one. -/
theorem endsAfter_decodeAt_prefix {m k : Nat} {u : State} (hm : n + m = 31) (hh : s.imgHeld)
    (hcap : 32 ≤ s.w.toNat * s.h.toNat * 3) (hu : EndsAfter k (validateLength (decodeAt s 32 .prefixPhase)) u) :
    EndsAfter (k + m + 1) (decodeAt s n .prefixPhase) u := by
  have hb (n : Nat) : (decodeAt s n .prefixPhase).phase ≠ .idle := by simp [decodeAt]
  induction m generalizing n with
  | zero =>
    obtain rfl : n = 31 := hm
    have hs := bitStep_decodeAt_prefix (s := s) (n := 31) (by decide) hh hcap
    rw [decodePrefixNext_decodeAt_last] at hs
    exact .bit (hb 31) hs hu
  | succ m ih =>
    have hs := bitStep_decodeAt_prefix (s := s) (n := n) (by omega) hh hcap
    rw [decodePrefixNext_decodeAt (by omega)] at hs
    exact .bit (hb n) hs (ih (by omega))

end

/-! ### A whole `DECODE` -/

/-- The frame bits that an accepted `DECODE` reads: those of a payload that fits the image, else those of the
length alone (42_decoder.md R183). -/
def State.decodeBits (s : State) : Nat :=
  if s.w.toNat * s.h.toNat * 3 < 32 + 8 * s.declaredLength then 32 else 32 + 8 * s.declaredLength

/-- The result kind of an accepted `DECODE`: invalid before empty (42_decoder.md R177, R181). -/
def State.decodeVerdict (s : State) : ResultKind :=
  if s.w.toNat * s.h.toNat * 3 < 32 + 8 * s.declaredLength then .invalidLengthError
  else if s.declaredLength = 0 then .emptyPayloadWarning
  else .ok

/-- The state a `DECODE` from the idle block `s` ends in: rejected, with nothing but `OP` and `STATUS.CODE` written, or
with its last frame bit read. -/
def decodeEnd (s : State) : State :=
  match decodeCheck s with
  | some k => (s.setOp (encode .decode)).finish k
  | none => (decodeAt s s.decodeBits .idle).finish s.decodeVerdict

theorem decodeEnd_rejected {s : State} {k : ResultKind} (hc : decodeCheck s = some k) :
    decodeEnd s = (s.setOp (encode .decode)).finish k := by
  simp only [decodeEnd, hc]

theorem decodeEnd_accepted {s : State} (hc : decodeCheck s = none) :
    decodeEnd s = (decodeAt s s.decodeBits .idle).finish s.decodeVerdict := by
  simp only [decodeEnd, hc]

theorem decodeSteps_accepted {s : State} (hc : decodeCheck s = none) : decodeSteps s = s.decodeBits + 1 := by
  obtain ⟨hi, hf⟩ := decodeCheck_none.1 hc
  rw [decodeSteps, if_neg (by simp [hi, hf]), State.decodeBits]
  split_ifs <;> omega

theorem decodeSteps_rejected {s : State} {k : ResultKind} (hc : decodeCheck s = some k) : decodeSteps s = 1 := by
  have hne : decodeCheck s ≠ none := by simp [hc]
  rw [Ne, decodeCheck_none] at hne
  rw [decodeSteps, if_pos ?_]
  by_contra hno
  simp only [not_or, Bool.not_eq_false, Nat.not_lt] at hno
  exact hne hno

theorem State.decodeBits_ge (s : State) : 32 ≤ s.decodeBits := by
  rw [State.decodeBits]
  split_ifs <;> omega

/-- What a declared payload that fits the image reaches of `PAY` exists under the host's duty. -/
theorem State.decodeDuty.payHeld {s : State} (h : s.decodeDuty) (hi : s.imgOk = true)
    (hfit : 32 + 8 * s.declaredLength ≤ s.w.toNat * s.h.toNat * 3) : s.payHeld s.declaredLength := by
  obtain ⟨-, hpay⟩ := h hi
  exact fits_of_fits (hpay (by omega)) (by omega) (.inr rfl)

/-- After its validation a `DECODE` ends with the bit steps of the payload, none when it is invalid or empty. -/
theorem endsAfter_validateLength {s : State} (hc : decodeCheck s = none) (hduty : s.decodeDuty) :
    EndsAfter (s.decodeBits - 32) (validateLength (decodeAt s 32 .prefixPhase))
      ((decodeAt s s.decodeBits .idle).finish s.decodeVerdict) := by
  obtain ⟨hi, -⟩ := decodeCheck_none.1 hc
  obtain ⟨hh, -⟩ := hduty hi
  have hlen : (decodeAt s 32 .prefixPhase).len.toNat = s.declaredLength := s.toNat_lengthAfter le_rfl
  simp only [State.decodeBits, State.decodeVerdict]
  split_ifs with hbig h0
  · rw [validateLength_invalid (by rw [hlen]; exact hbig)]
    exact .idle rfl
  · rw [validateLength_empty (by rw [hlen]; exact Nat.le_of_not_lt hbig) (hlen.trans h0), h0]
    exact .idle rfl
  · have hfit := Nat.le_of_not_lt hbig
    rw [validateLength_valid (by rw [hlen]; exact hfit) (by omega)]
    obtain ⟨m, hm⟩ : ∃ m, 8 * s.declaredLength = m + 1 := ⟨8 * s.declaredLength - 1, by omega⟩
    have hend := endsAfter_decodeAt_payload (n := 32) (m := m) le_rfl (by omega) hh hfit (hduty.payHeld hi hfit)
    rw [Nat.add_sub_cancel_left, hm]
    rw [hm] at hend
    exact hend

/-- The bit steps of an accepted `DECODE`, from its first one (42_decoder.md R183, R190). -/
theorem endsAfter_decode {s : State} (hc : decodeCheck s = none) (hduty : s.decodeDuty) :
    EndsAfter s.decodeBits (decodeAt s 0 .prefixPhase) (decodeEnd s) := by
  obtain ⟨hi, hcap⟩ := decodeCheck_none.1 hc
  obtain ⟨hh, -⟩ := hduty hi
  have hge := s.decodeBits_ge
  have hbits : s.decodeBits = s.decodeBits - 32 + 31 + 1 := by omega
  rw [hbits, decodeEnd_accepted hc]
  exact endsAfter_decodeAt_prefix rfl hh hcap (endsAfter_validateLength hc hduty)

section
variable {s : State} {v : Nat} {rest : List HostAction} (hp : s.phase = .idle) (hh : s.host = .wr 0x0 v :: rest)
  (hd : decode (commandWord v) = .command .decode) (hw : hostWaits rest = true) (hduty : s.decodeDuty)
include hp hh hd hw hduty

/-- From the write to `CMD`, `DECODE` ends after exactly its number of steps, and is busy before (42_decoder.md R183,
R190). -/
theorem run_decode :
    Host.Core.run core (decodeSteps s) s = .next (decodeEnd (s.setHost rest)) ∧
      ∀ n, 1 ≤ n → n < decodeSteps s → ∃ u, Host.Core.run core n s = .next u ∧ u.phase ≠ .idle := by
  have hstart : step s = .next _ :=
    (cmdWriteWhileIdleRunsTheDecodedCommand s v rest .decode hp hh hd).trans (execDecode_idle hp)
  cases hc : decodeCheck (s.setHost rest) with
  | some k =>
    rw [hc] at hstart
    have hk : decodeSteps s = 0 + 1 := decodeSteps_rejected hc
    rw [hk, run_succ 0 hstart, decodeEnd_rejected hc]
    exact ⟨rfl, fun n hn hlt => by omega⟩
  | none =>
    simp only [hc, ← decodeAt_zero] at hstart
    have hk : decodeSteps s = s.decodeBits + 1 := decodeSteps_accepted hc
    obtain ⟨hrun, hbusy⟩ := (endsAfter_decode (s := s.setHost rest) hc hduty).run hw
    rw [hk, run_succ _ hstart]
    refine ⟨hrun, fun n hn hlt => ?_⟩
    obtain ⟨m, rfl⟩ := Nat.exists_eq_add_of_le' hn
    rw [run_succ m hstart]
    exact hbusy m (Nat.lt_of_succ_lt_succ hlt)

end

/-! ### The end state of `DECODE` -/

theorem decodeEnd_frame (s : State) :
    OperandsKept s (decodeEnd s) ∧ (decodeEnd s).phase = .idle ∧ (decodeEnd s).op = encode .decode ∧
      (decodeEnd s).img = s.img ∧ (decodeEnd s).host = s.host := by
  cases hc : decodeCheck s with
  | some k => rw [decodeEnd_rejected hc]; exact ⟨by constructor <;> rfl, rfl, rfl, rfl, rfl⟩
  | none => rw [decodeEnd_accepted hc]; exact ⟨by constructor <;> rfl, rfl, rfl, rfl, rfl⟩

section
variable {s : State}

theorem decodeEnd_of_check_some {k : ResultKind} (hc : decodeCheck s = some k) (rest : List HostAction) :
    DecodeNoPayload k s.len.toNat s.cursor.toNat s.acc.toNat s (decodeEnd (s.setHost rest)) := by
  rw [decodeEnd_rejected (s := s.setHost rest) hc]
  exact ⟨rfl, rfl, rfl, rfl, rfl⟩

/-- A `DECODE` that reads the length alone. -/
theorem decodeEnd_of_prefix {k : ResultKind} (hc : decodeCheck s = none) (hbits : s.decodeBits = 32)
    (hverdict : s.decodeVerdict = k) (rest : List HostAction) :
    DecodeNoPayload k s.declaredLength 32 0 s (decodeEnd (s.setHost rest)) := by
  have hbits' : (s.setHost rest).decodeBits = 32 := hbits
  rw [decodeEnd_accepted (s := s.setHost rest) hc, hbits']
  exact ⟨hverdict, s.toNat_lengthAfter le_rfl, rfl, rfl, rfl⟩

/-- A `DECODE` that reads its whole payload. -/
theorem decodeEnd_of_payload (hc : decodeCheck s = none) (hbits : s.decodeBits = 32 + 8 * s.declaredLength)
    (hverdict : s.decodeVerdict = .ok) (hw : s.pay.wf = true) (rest : List HostAction) :
    DecodeAccepted s (decodeEnd (s.setHost rest)) := by
  have hbits' : (s.setHost rest).decodeBits = 32 + 8 * s.declaredLength := hbits
  have hbytes : (32 + 8 * s.declaredLength - 32) / 8 = s.declaredLength := by omega
  have hread (k : Nat) := (s.setHost rest).storedPay_read ((32 + 8 * s.declaredLength - 32) / 8) k hw
  rw [decodeEnd_accepted (s := s.setHost rest) hc, hbits']
  exact
    { status := hverdict
      len := s.toNat_lengthAfter (by omega)
      cursor := decodeAt_cursor (s := s.setHost rest) .idle le_rfl
      acc := s.partialAfter_whole (by omega)
      bytes := fun k hk => by
        have hb := (hread k).trans (if_pos (hbytes.symm ▸ hk))
        exact (congrArg BitVec.toNat hb).trans (s.toNat_declaredByte k)
      rest := fun k hk => (hread k).trans (if_neg (by omega)) }

/-- 42_decoder.md R190: where `DECODE` ends is the result of its big-step function. -/
theorem decodeEnd_bigStep (hw : s.pay.wf = true) (rest : List HostAction) :
    DecodeEnd s (decodeEnd (s.setHost rest)) := by
  obtain ⟨hkept, hphase, hop, himg, -⟩ := decodeEnd_frame (s.setHost rest)
  refine ⟨{ hkept with }, hphase, hop, himg, ?_⟩
  have hc := decodeCheck_eq s
  split_ifs at hc ⊢ with hi hcap hbig h0
  · exact decodeEnd_of_check_some hc rest
  · exact decodeEnd_of_check_some hc rest
  · exact decodeEnd_of_prefix hc (if_pos hbig) (if_pos hbig) rest
  · have hempty := decodeEnd_of_prefix hc ((if_neg hbig).trans (by rw [h0])) ((if_neg hbig).trans (if_pos h0)) rest
    rwa [h0] at hempty
  · exact decodeEnd_of_payload hc (if_neg hbig) ((if_neg hbig).trans (if_neg h0)) hw rest

end

/-- Settles O42: by the run of `DECODE` up to its end and the end state's fields. -/
theorem decodeReachesItsBigStepResult : Obligations.DecodeReachesItsBigStepResult := by
  intro s v rest _ hpw hp hh hd hw hduty
  obtain ⟨hrun, hbusy⟩ := run_decode hp hh hd hw hduty
  obtain ⟨-, -, -, -, hhost⟩ := decodeEnd_frame (s.setHost rest)
  exact ⟨⟨_, hrun, hhost, decodeEnd_bigStep hpw rest⟩, hbusy⟩

/-! ### An image that agrees in the bits read -/

section
variable {s : State} {m : Memory} {n : Nat} (hlsb : ∀ i, i < n → (s.setImg m).lsbAt i = s.lsbAt i)
include hlsb

theorem State.lengthAfter_setImg : (s.setImg m).lengthAfter n = s.lengthAfter n :=
  congrArg (BitVec.ofNat 32) (gather_congr fun i hi => hlsb i (by omega))

/-- The bits of a byte not yet complete are among the frame bits read. -/
theorem State.partialAfter_setImg : (s.setImg m).partialAfter (n - 32) = s.partialAfter (n - 32) :=
  congrArg (BitVec.ofNat 8) (gather_congr fun j hj => hlsb _ (by omega))

/-- The bits of a complete byte are among the frame bits read. -/
theorem State.declaredByte_setImg {k : Nat} (hk : 32 + 8 * k + 8 ≤ n) :
    (s.setImg m).declaredByte k = s.declaredByte k :=
  gather_congr fun j hj => hlsb _ (by omega)

theorem State.storedPay_setImg {k : Nat} (hk : 32 + 8 * k ≤ n ∨ k = 0) :
    (s.setImg m).storedPay k = s.storedPay k := by
  induction k with
  | zero => rfl
  | succ k ih => rw [State.storedPay, State.storedPay, ih (by omega), declaredByte_setImg hlsb (by omega)]

/-- What a `DECODE` has read depends on the image through those frame bits alone. -/
theorem decodeAt_setImg (p : Phase) : decodeAt (s.setImg m) n p = (decodeAt s n p).setImg m := by
  simp only [decodeAt, State.lengthAfter_setImg hlsb, State.partialAfter_setImg hlsb,
    State.storedPay_setImg hlsb (k := (n - 32) / 8) (by omega)]
  rfl

end

section
variable {s : State} {m : Memory} (hlsb : ∀ i, i < 32 → (s.setImg m).lsbAt i = s.lsbAt i)
include hlsb

theorem State.declaredLength_setImg : (s.setImg m).declaredLength = s.declaredLength := gather_congr hlsb

theorem decodeSteps_setImg : decodeSteps (s.setImg m) = decodeSteps s := by
  rw [decodeSteps, State.declaredLength_setImg hlsb]
  rfl

/-- 42_decoder.md R184: the end of a `DECODE` depends on the image through bit 0 of the frame's cells alone. -/
theorem decodeEnd_setImg
    (hframe : 32 + 8 * s.declaredLength ≤ s.w.toNat * s.h.toNat * 3 →
      ∀ i, i < 32 + 8 * s.declaredLength → (s.setImg m).lsbAt i = s.lsbAt i) :
    decodeEnd (s.setImg m) = (decodeEnd s).setImg m := by
  have hc' : decodeCheck (s.setImg m) = decodeCheck s := rfl
  cases hc : decodeCheck s with
  | some k =>
    rw [decodeEnd_rejected (hc'.trans hc), decodeEnd_rejected hc]
    rfl
  | none =>
    have hlen := State.declaredLength_setImg hlsb
    have hbits : (s.setImg m).decodeBits = s.decodeBits := by
      rw [State.decodeBits, hlen]
      rfl
    have hverdict : (s.setImg m).decodeVerdict = s.decodeVerdict := by
      rw [State.decodeVerdict, hlen]
      rfl
    have hread : ∀ i, i < s.decodeBits → (s.setImg m).lsbAt i = s.lsbAt i := by
      rw [State.decodeBits]
      split_ifs with hbig
      · exact hlsb
      · exact hframe (Nat.le_of_not_lt hbig)
    rw [decodeEnd_accepted (hc'.trans hc), decodeEnd_accepted hc, hbits, hverdict, decodeAt_setImg hread]
    rfl

end

/-- Settles O45: both runs end as `DECODE` does, after equally many steps, with what was read of equal bits. -/
theorem decodeDependsOnlyOnLsbs : Obligations.DecodeDependsOnlyOnLsbs := by
  intro s m v rest _ _ hp hh hd hw hduty hlsb hframe
  obtain ⟨-, hphase, hop, -, hhost⟩ := decodeEnd_frame (s.setHost rest)
  obtain ⟨hrun, -⟩ := run_decode hp hh hd hw hduty
  obtain ⟨hrun', -⟩ := run_decode (s := s.setImg m) hp hh hd hw hduty
  have hend : decodeEnd ((s.setImg m).setHost rest) = (decodeEnd (s.setHost rest)).setImg m :=
    decodeEnd_setImg (s := s.setHost rest) hlsb hframe
  rw [decodeSteps_setImg hlsb, hend] at hrun'
  refine ⟨?_, _, hrun, hhost, hphase, hop, hrun'⟩
  cases hc : decodeCheck s with
  | some k => exact (decodeSteps_rejected hc).ge
  | none => exact (decodeSteps_accepted hc).ge.trans' (Nat.le_add_left _ _)

end Sys2Proof.Machine

/-! # The round trip of a frame through the image, and the capacity boundary (43_framing_invariants.md) -/

namespace Sys2Proof.Machine

/-! ### The capacity boundary -/

/-- The start step of `ENCODE` accepts exactly when no check fails: a failing check ends with its own kind. -/
theorem exec_encode_busy_iff {s : State} (hp : s.phase = .idle) :
    (∃ t, exec .encode s = .next t ∧ t.status = .busy) ↔ encodeCheck s = none := by
  cases hc : encodeCheck s with
  | some k =>
    obtain ⟨-, hne, -⟩ := encodeCheck_ne_busy hc
    simp [exec_encode_rejected hp hc, hne]
  | none => exact iff_of_true ⟨_, exec_encode_accepted hp hc, rfl⟩ rfl

/-- Settles O18: the start step accepts what fits; a capacity is a multiple of 3. -/
theorem encodeCapacityBoundary : Obligations.EncodeCapacityBoundary := by
  intro s hp hi hpo hl
  have hbusy : (∃ t, exec .encode s = .next t ∧ t.status = .busy) ↔
      32 + 8 * s.plen.toNat ≤ s.w.toNat * s.h.toNat * 3 := by
    rw [exec_encode_busy_iff hp, encodeCheck_none]
    exact ⟨fun ⟨_, _, _, hfit⟩ => hfit, fun hfit => ⟨hi, hpo, hl, hfit⟩⟩
  obtain ⟨-, -, -, hsmall, -, -⟩ := encodeStartStepChecksInOrder s hp
  refine ⟨fun heq => ⟨by omega, hbusy.2 heq.le⟩, fun heq => ⟨by omega, ?_⟩, hbusy.trans (by omega)⟩
  exact ⟨_, hsmall hi hpo hl (by omega), rfl⟩

/-! ### A frame that stands in the image -/

/-- Bit 0 of the cells of `u`'s image spells the frame of length `l` and bytes `p` (30_encoding.md R100). -/
def State.HoldsFrame (u : State) (l : Nat) (p : Nat → Byte) : Prop :=
  ∀ i, i < 32 + 8 * l → u.lsbAt i = frameBit l p i

/-- `DECODE` in `x` has returned the payload of length `l` and bytes `p`, or the warning that it is empty. -/
def State.ReturnsPayload (x : State) (l : Nat) (p : Nat → Byte) : Prop :=
  x.len.toNat = l ∧ (1 ≤ l → x.status = .ok ∧ ∀ k, k < l → x.pay.read k = p k) ∧
    (l = 0 → x.status = .emptyPayloadWarning)

section
variable {u : State} {l : Nat} {p : Nat → Byte} (hf : u.HoldsFrame l p) (hl : l < 2 ^ 32)
include hf hl

theorem State.HoldsFrame.declaredLength : u.declaredLength = l := by
  obtain ⟨hlen, -, -⟩ := frameBitsAssembleBack l p hl
  exact (gather_congr fun i hi => hf i (by omega)).trans hlen

theorem State.HoldsFrame.declaredByte {k : Nat} (hk : k < l) : u.declaredByte k = (p k).toNat := by
  obtain ⟨-, hbyte, -⟩ := frameBitsAssembleBack l p hl
  exact (gather_congr fun j hj => hf _ (by omega)).trans (hbyte k)

/-- 42_decoder.md R183: one step for each frame bit after the start step. -/
theorem State.HoldsFrame.decodeSteps (hi : u.imgOk = true) (hfit : 32 + 8 * l ≤ u.w.toNat * u.h.toNat * 3) :
    decodeSteps u = 33 + 8 * l := by
  have hc : decodeCheck u = none := decodeCheck_none.2 ⟨hi, by omega⟩
  rw [decodeSteps_accepted hc, State.decodeBits, hf.declaredLength hl, if_neg (by omega)]
  omega

/-- A frame that fits the dimensions it is read with gives its payload back. -/
theorem State.HoldsFrame.returnsPayload {x : State} (hx : DecodeEnd u x) (hi : u.imgOk = true)
    (hfit : 32 + 8 * l ≤ u.w.toNat * u.h.toNat * 3) : x.ReturnsPayload l p := by
  have hlen := hf.declaredLength hl
  have hres := hx.result
  rw [if_neg (by simp [hi]), if_neg (by omega), hlen, if_neg (by omega)] at hres
  split_ifs at hres with h0
  · exact ⟨hres.len.trans h0.symm, fun h1 => by omega, fun _ => hres.status⟩
  · refine ⟨hres.len.trans hlen, fun _ => ⟨hres.status, fun k hk => BitVec.eq_of_toNat_eq ?_⟩,
      fun h => absurd h h0⟩
    exact (hres.bytes k (hlen.symm ▸ hk)).trans (hf.declaredByte hl hk)

/-- A frame too long for the dimensions it is read with is invalid, also where not even its prefix fits them. -/
theorem State.HoldsFrame.invalid {x : State} (hx : DecodeEnd u x) (hi : u.imgOk = true)
    (hbig : u.w.toNat * u.h.toNat * 3 < 32 + 8 * l) : x.status = .invalidLengthError := by
  have hres := hx.result
  rw [if_neg (by simp [hi]), hf.declaredLength hl, if_pos hbig] at hres
  split_ifs at hres <;> exact hres.status

end

/-! ### The frame that `ENCODE` leaves -/

/-- 43_framing_invariants.md R201: an accepted `ENCODE` determines bit 0 of every cell of its frame, and which cells
these are does not depend on `W`. -/
theorem EncodeAccepted.holdsFrame {s t u : State} (h : EncodeAccepted s t) (himg : u.img = t.img)
    (hparams : u.params = s.params) : u.HoldsFrame s.plen.toNat s.pay.read := by
  intro i hi
  rw [State.lsbAt, himg, hparams, h.frame i hi, ← withLsb_eq, bitOf_withLsb]

/-- `ENCODE` with both inputs offered and a frame that fits, under the host's size duties (41_encoder.md R160). -/
theorem run_encode_fitting {s : State} {v : Nat} {rest : List HostAction} (hinv : s.Inv) (hp : s.phase = .idle)
    (hh : s.host = .wr 0x0 v :: rest) (hd : decode (commandWord v) = .command .encode) (hw : hostWaits rest = true)
    (henv : s.env = 3) (hl : s.plen.toNat ≤ 2 ^ 32 - 1) (hfit : 32 + 8 * s.plen.toNat ≤ s.w.toNat * s.h.toNat * 3)
    (himg : s.imgHeld) (hpay : s.payHeld s.plen.toNat) :
    ∃ t, Host.Core.run core (33 + 8 * s.plen.toNat) s = .next t ∧ t.phase = .idle ∧ EncodeAccepted s t := by
  have hi : s.imgOk = true := by simp [State.imgOk, henv]
  have hpo : s.payOk = true := by simp [State.payOk, henv]
  have hc : encodeCheck s = none := encodeCheck_none.2 ⟨hi, hpo, hl, hfit⟩
  have hmin : min s.plen.toNat ((s.w.toNat * s.h.toNat * 3 - 32) / 8) = s.plen.toNat := min_eq_left (by omega)
  have hduty : s.encodeDuty := fun _ => ⟨himg, fun _ _ => hmin.symm ▸ hpay⟩
  have hsteps : encodeSteps s = 33 + 8 * s.plen.toNat := by rw [encodeSteps_accepted hc]; omega
  exact ⟨_, hsteps ▸ run_encode hinv.data.imgWf hp hh hd hw hduty, encodeEnd_idle _,
    encodeEnd_of_check_none hinv.data.imgWf hc rest⟩

/-! ### `DECODE` after `ENCODE` -/

/-- Settles O43: the frame that `ENCODE` leaves stands in the second state's image, and fits the same dimensions. -/
theorem decodeAfterEncodeReturnsThePayload : Obligations.DecodeAfterEncodeReturnsThePayload := by
  intro s v rest hinv hp hh hd hw henv hl hfit himg hpay
  obtain ⟨t, hrun, hidle, hacc⟩ := run_encode_fitting hinv hp hh hd hw henv hl hfit himg hpay
  refine ⟨t, hrun, hidle, hacc.status, ?_⟩
  intro u v' rest' hinv' hp' huimg huw huh hparams hi hduty hh' hd' hw'
  have hf := hacc.holdsFrame huimg hparams
  have hl' : s.plen.toNat < 2 ^ 32 := by omega
  rw [← huw, ← huh] at hfit
  obtain ⟨⟨x, hrun', hhost, hx⟩, -⟩ :=
    decodeReachesItsBigStepResult u v' rest' hinv'.data.imgWf hinv'.data.payWf hp' hh' hd' hw' hduty
  rw [hf.decodeSteps hl' hi hfit] at hrun'
  exact ⟨x, hrun', hhost, hx.phase, hf.returnsPayload hl' hx hi hfit⟩

/-- Settles O44: the same frame stands there whatever the dimensions, and either fits them or does not. -/
theorem decodeWithOtherDimensions : Obligations.DecodeWithOtherDimensions := by
  intro s v rest hinv hp hh hd hw henv hl hfit himg hpay
  obtain ⟨t, hrun, hidle, hacc⟩ := run_encode_fitting hinv hp hh hd hw henv hl hfit himg hpay
  refine ⟨t, hrun, hidle, hacc.status, ?_⟩
  intro u v' rest' hinv' hp' huimg hparams hi hduty hh' hd' hw'
  have hf := hacc.holdsFrame huimg hparams
  have hl' : s.plen.toNat < 2 ^ 32 := by omega
  obtain ⟨⟨x, hrun', hhost, hx⟩, -⟩ :=
    decodeReachesItsBigStepResult u v' rest' hinv'.data.imgWf hinv'.data.payWf hp' hh' hd' hw' hduty
  exact ⟨_, x, hrun', hhost, hx.phase, hf.returnsPayload hl' hx hi, hf.invalid hl' hx hi⟩

end Sys2Proof.Machine

/-! # The states without a row of the transition table (44_sequencing_and_access.md R211) -/

namespace Sys2Proof.Machine

theorem bitStep_idle {s : State} (hp : s.phase = .idle) : bitStep s = .fault .noSequencerRow := by
  simp only [bitStep, hp]

/-- Every busy row is one of `ENCODE` or `DECODE`. -/
theorem bitStep_of_other_op {s : State} (he : s.op ≠ encode .encode) (hd : s.op ≠ encode .decode) :
    bitStep s = .fault .noSequencerRow := by
  cases hp : s.phase with
  | idle => exact bitStep_idle hp
  | prefixPhase | payloadPhase => simp only [bitStep, hp, if_neg he, if_neg hd, ite_self]

/-- Settles O9: the rows of the core's own step are busy and of opcode 1 or 2. -/
theorem sequencerHasNoStepWithoutARow : Obligations.SequencerHasNoStepWithoutARow := by
  rintro s (hp | ho | ho)
  · exact bitStep_idle hp
  · exact bitStep_of_other_op (ho ▸ by decide) (ho ▸ by decide)
  · exact bitStep_of_other_op (ho ▸ by decide) (ho ▸ by decide)

end Sys2Proof.Machine

/-! # The result kinds that no step reports (60_exceptions.md R227) -/

namespace Sys2Proof.Machine

/-- No host write to a register reaches `STATUS.CODE` (10_state.md R42). -/
@[simp] theorem State.writeReg_status (s : State) (r : Reg) (v : Nat) : (s.writeReg r v).status = s.status := by
  cases r <;> rfl

/-- Settles O30: the kinds a bit step, a start step, the reserved word and a reset report are others, and every other
move keeps the status. -/
theorem coreNeverReportsOutputWriteError : Obligations.CoreNeverReportsOutputWriteError := by
  intro s t hs herr
  cases stepCase_of_step hs with
  | core l hb h =>
    rcases (bitStep_frame h).status with hst | hst | hst | hst
    · exact hst.symm.trans herr
    · cases hst.symm.trans herr
    · cases hst.symm.trans herr
    · cases hst.symm.trans herr
  | start i v rest hp hh hd h =>
    obtain ⟨-, -, -, -, -, -, -, -, -, -, -, -, -, -, -, hne, -⟩ := exec_frame h
    exact absurd herr hne
  | operand r v rest hp ha hh ht =>
    rwa [ht, State.writeReg_status] at herr
  | illegal _ _ _ _ ht | reset _ _ ht =>
    subst ht
    cases herr
  | quiet _ _ _ ht | imgWrite _ _ _ _ _ ht | payWrite _ _ _ _ _ ht =>
    subst ht
    exact herr

end Sys2Proof.Machine

/-! # Reset and the idle block (70_reset_and_hazards.md R260, R262) -/

namespace Sys2Proof.Machine

theorem step_reset {s : State} {rest : List HostAction} (h : s.host = .reset :: rest) :
    step s = .next (resetBlock (s.setHost rest)) :=
  step_of_taken h (.inl rfl)

/-- A memory inside a command is not restored by a reset (R262). -/
theorem resetMemory_busy {s : State} (size : Option Nat) (m : Memory) (n : Nat) (hb : s.phase ≠ .idle) :
    resetMemory s size m n = m := by
  cases hp : s.phase with
  | idle => exact absurd hp hb
  | prefixPhase | payloadPhase => simp only [resetMemory, hp]

/-- Settles O29: the kinds a bit step, a start step and the reserved word report are others, and every other move but
a reset keeps the status. -/
theorem onlyResetGivesStatusNone : Obligations.OnlyResetGivesStatusNone := by
  intro s t hs hnone
  cases stepCase_of_step hs with
  | core l hb h =>
    rcases (bitStep_frame h).status with hst | hst | hst | hst
    · exact .inl (hst.symm.trans hnone)
    · cases hst.symm.trans hnone
    · cases hst.symm.trans hnone
    · cases hst.symm.trans hnone
  | start i v rest hp hh hd h =>
    obtain ⟨-, -, -, -, -, -, -, -, -, -, -, -, -, -, hne, -, -⟩ := exec_frame h
    exact absurd hnone hne
  | operand r v rest hp ha hh ht =>
    rw [ht, State.writeReg_status] at hnone
    exact .inl hnone
  | illegal _ _ _ _ ht =>
    subst ht
    cases hnone
  | quiet _ _ _ ht | imgWrite _ _ _ _ _ ht | payWrite _ _ _ _ _ ht =>
    subst ht
    exact .inl hnone
  | reset rest hh => exact .inr ⟨rest, hh⟩

/-- Settles O8: with no move pending only a busy core has a step of its own. -/
theorem idleBlockWithoutHostMoveStays : Obligations.IdleBlockWithoutHostMoveStays := by
  intro s hp hh
  rw [step_of_nil hh, isBusy_of_idle hp, if_neg Bool.false_ne_true]

/-- Settles O39: a reset is taken in any phase, and what it leaves of a memory depends on the phase alone. -/
theorem resetAbandonsTheCommand : Obligations.ResetAbandonsTheCommand := by
  intro s rest hh
  have hpay (hb : s.phase ≠ .idle) : (resetBlock (s.setHost rest)).pay = s.pay := resetMemory_busy _ _ _ hb
  have himg (hb : s.phase ≠ .idle) : (resetBlock (s.setHost rest)).img = s.img := resetMemory_busy _ _ _ hb
  exact ⟨_, step_reset hh, rfl, rfl, rfl, rfl, rfl, fun hb _ => hpay hb, fun hb _ => himg hb, rfl, rfl, rfl⟩

end Sys2Proof.Machine
